-- ==== Sys2Proof/Word.lean ====
section
/-! DEFINITION. The word types of the host interface and the small closed sets of names the command word and the
randomness port speak of. (spec/20_memory.md R50, spec/30_encoding.md R80, R83, spec/00_scope.md R17) -/

namespace Sys2Proof

/-- A host word: one location of the host space, one command word (R50, R80). -/
abbrev Word := BitVec 32

/-- A word address of the host space: 17 bits, `2^17` locations (R50). -/
abbrev HostAddr := BitVec 17

/-- The vectors a DOT operand can name (R83, values 0 to 5). -/
inductive VecSel where
  | vb | vu | vs | vr
  | mrow  -- row `IDX` of `MA`
  | mcol  -- column `IDX` of `MA`
  deriving DecidableEq, Repr

/-- The vectors MATVEC can multiply by: selector values 0 to 3 of R83 (R141). -/
inductive SrcSel where
  | vb | vu | vs | vr
  deriving DecidableEq, Repr

/-- The vectors MATVEC can write: destination values 0 and 1 of R83 (R141). -/
inductive DstSel where
  | vb | vu
  deriving DecidableEq, Repr

/-- `Err3`, the domain `{-1, 0, 1}` of the error term (R17, R112). -/
inductive Err3 where
  | neg | zero | pos
  deriving DecidableEq, Repr, Inhabited

end Sys2Proof
end

