-- ==== Sys2Proof/Config.lean ====
section
/-! DEFINITION. The configuration a block is built with, its limits, and the free values: what the spec leaves open
at run time and no proof may know. (spec/00_scope.md R6 to R10, spec/40_randomness_port.md R114, spec/20_memory.md R59) -/

namespace Sys2Proof

/-- The three conditions a pair `(N, Q)` must meet to be an instance of this hardware (R6, R7, R8). -/
def Config.limits (n q : Nat) : Bool :=
  decide (1 ≤ n ∧ n ≤ 256 ∧ 2 ≤ q ∧ q ≤ 65535 ∧ n * (q - 1) * (q - 1) + q ≤ 2 ^ 31 - 1)

/-- The configuration: the dimension `N` and the modulus `Q`, fixed when the block is built (R6, R7, R10).
A pair outside the limits is refused here, where the configuration is made: it has no value of this type
(R8, R211; spec/93_implementation_defined.md U11). -/
structure Config where
  n : Nat
  q : Nat
  within : Config.limits n q = true := by decide
  deriving DecidableEq, Repr

/-- The reference configuration `N = 64`, `Q = 2053` (R6, R7). -/
def Config.reference : Config := { n := 64, q := 2053 }

/-- The other observed configuration, `N = 128` (R6). -/
def Config.observed128 : Config := { n := 128, q := 2053 }

/-- A configuration from any two numbers, or none where the pair is no instance of this hardware (R8, R211). -/
def Config.make? (n q : Nat) : Option Config :=
  if h : Config.limits n q = true then some { n := n, q := q, within := h } else none

/-- FREE VALUE (assumption 5). The `k`-th draw of the random source, where it answers a `BIT` request (R110, R114). -/
opaque Config.freeBit (k : Nat) : Bool

/-- FREE VALUE (assumption 5). The `k`-th draw, where it answers a `MODQ` request at the modulus `m + 1`: any
integer below the modulus, no law about which (R111, R114). -/
opaque Config.freeModq (m k : Nat) : Fin (m + 1)

/-- FREE VALUE (assumption 5). The `k`-th draw, where it answers an `ERR` request (R112, R114). -/
opaque Config.freeErr (k : Nat) : Err3

/-- FREE VALUE (assumption 6). The word the `k`-th unspecified host read returns, under no law (R59). -/
opaque Config.freeReadWord (k : Nat) : Word

end Sys2Proof
end

