-- ==== Sys2Proof/Syntax.lean ====
section
/-! DEFINITION. The commands: one constructor per row of spec/opcode_table.json. (spec/30_encoding.md R82, R88, R91) -/

namespace Sys2Proof

/-- The six commands, MATVEC and its transposed form apart as the opcode table has them (R82, R88, R91).
Operands in the order of the spec's assembler syntax. -/
inductive Instr where
  | modred                                        -- MODRED
  | dot (sa sb : VecSel) (idx : BitVec 8)         -- DOT sa, sb
  | matvec (dst : DstSel) (sb : SrcSel)           -- MATVEC dst, sb
  | matvecT (dst : DstSel) (sb : SrcSel)          -- MATVEC.T dst, sb
  | keygen                                        -- KEYGEN
  | enc                                           -- ENC
  | dec                                           -- DEC
  deriving DecidableEq, Repr

end Sys2Proof
end

