-- ==== Sys2Proof/WellFormed.lean ====
section
/-! DEFINITION. Which commands the hardware of dimension `N` has: the limits R84 puts on DOT's index. Every other
limit of R84 is already in the types of the operands. (spec/30_encoding.md R83, R84) -/

namespace Sys2Proof

/-- The selectors that name a row or a column of `MA` and so use `IDX` (R83, R84). -/
def VecSel.usesMatrix : VecSel → Bool
  | .mrow => true
  | .mcol => true
  | .vb => false
  | .vu => false
  | .vs => false
  | .vr => false

/-- A command is well-formed at dimension `n`: a DOT with a matrix selector has `IDX < N`, one without has
`IDX = 0`; the other commands have no field left to limit (R84). -/
def Instr.wf (n : Nat) : Instr → Bool
  | .dot sa sb idx => if sa.usesMatrix || sb.usesMatrix then decide (idx.toNat < n) else idx == 0#8
  | .modred => true
  | .matvec _ _ => true
  | .matvecT _ _ => true
  | .keygen => true
  | .enc => true
  | .dec => true

end Sys2Proof
end

