-- ==== Sys2Proof/Decode.lean ====
section
/-! DEFINITION. The command word: its fields, which words are legal, the decoder (total on all `2^32` words) and the
encoder. (spec/30_encoding.md R80 to R88, spec/00_scope.md R13) -/

namespace Sys2Proof

/-- `bits[hi:lo]` of a word, as an unsigned integer (R13). -/
def bits (w : Word) (hi lo : Nat) : Nat := w.toNat / 2 ^ lo % 2 ^ (hi - lo + 1)

/-! ## The fields (R81) -/

def opField (w : Word) : Nat := bits w 3 0
def saField (w : Word) : Nat := bits w 7 4
def sbField (w : Word) : Nat := bits w 11 8
def dstField (w : Word) : Nat := bits w 15 12
def tField (w : Word) : Nat := bits w 16 16
def rsvField (w : Word) : Nat := bits w 23 17
def idxField (w : Word) : Nat := bits w 31 24

/-! ## Legal words (R84) -/

/-- `Legal(cw)`, as R84 writes it: it reads the word and the constant `N` only. -/
def legal (n : Nat) (cw : Word) : Bool :=
  if rsvField cw ≠ 0 then false
  else match opField cw with
    | 1 | 4 | 5 | 6 =>
      decide (saField cw = 0 ∧ sbField cw = 0 ∧ dstField cw = 0 ∧ tField cw = 0 ∧ idxField cw = 0)
    | 2 =>
      if dstField cw ≠ 0 ∨ tField cw ≠ 0 then false
      else if saField cw > 5 ∨ sbField cw > 5 then false
      else if saField cw ≥ 4 ∨ sbField cw ≥ 4 then decide (idxField cw < n)
      else decide (idxField cw = 0)
    | 3 => decide (saField cw = 0 ∧ idxField cw = 0 ∧ sbField cw ≤ 3 ∧ dstField cw ≤ 1)
    | _ => false

/-! ## Selector values (R83) -/

def VecSel.code : VecSel → Nat
  | .vb => 0
  | .vu => 1
  | .vs => 2
  | .vr => 3
  | .mrow => 4
  | .mcol => 5

def SrcSel.code : SrcSel → Nat
  | .vb => 0
  | .vu => 1
  | .vs => 2
  | .vr => 3

def DstSel.code : DstSel → Nat
  | .vb => 0
  | .vu => 1

/-- Values 6 to 15 name no vector (R83). -/
def VecSel.ofCode? : Nat → Option VecSel
  | 0 => some .vb
  | 1 => some .vu
  | 2 => some .vs
  | 3 => some .vr
  | 4 => some .mrow
  | 5 => some .mcol
  | _ => none

/-- A matrix row or column cannot be MATVEC's vector (R84, R141). -/
def SrcSel.ofCode? : Nat → Option SrcSel
  | 0 => some .vb
  | 1 => some .vu
  | 2 => some .vs
  | 3 => some .vr
  | _ => none

/-- Only `VB` and `VU` can be written by MATVEC (R83). -/
def DstSel.ofCode? : Nat → Option DstSel
  | 0 => some .vb
  | 1 => some .vu
  | _ => none

/-! ## The decoder -/

/-- A command that reads no field but `OP`: every other field must be 0 (R84). -/
def decodePlain (cw : Word) (i : Instr) : Option Instr :=
  if saField cw = 0 ∧ sbField cw = 0 ∧ dstField cw = 0 ∧ tField cw = 0 ∧ idxField cw = 0 then some i else none

/-- DOT: two selectors and the shared index (R84, R85). -/
def decodeDot (n : Nat) (cw : Word) : Option Instr :=
  if dstField cw = 0 ∧ tField cw = 0 then
    match VecSel.ofCode? (saField cw), VecSel.ofCode? (sbField cw) with
    | some sa, some sb =>
      if (Instr.dot sa sb (BitVec.ofNat 8 (idxField cw))).wf n then
        some (.dot sa sb (BitVec.ofNat 8 (idxField cw)))
      else none
    | _, _ => none
  else none

/-- MATVEC and, with `T = 1`, MATVEC.T (R81, R84). -/
def decodeMatvec (cw : Word) : Option Instr :=
  if saField cw = 0 ∧ idxField cw = 0 then
    match DstSel.ofCode? (dstField cw), SrcSel.ofCode? (sbField cw) with
    | some dst, some sb => if tField cw = 0 then some (.matvec dst sb) else some (.matvecT dst sb)
    | _, _ => none
  else none

/-- The decoder: every word is one command or none (R82, R86, R87). -/
def decode (n : Nat) (cw : Word) : Option Instr :=
  if rsvField cw ≠ 0 then none
  else match opField cw with
    | 1 => decodePlain cw .modred
    | 2 => decodeDot n cw
    | 3 => decodeMatvec cw
    | 4 => decodePlain cw .keygen
    | 5 => decodePlain cw .enc
    | 6 => decodePlain cw .dec
    | _ => none

/-! ## The encoder (R84, R88) -/

/-- The command word of a command, by the sums of R88. -/
def encode : Instr → Word
  | .modred => 0x00000001#32
  | .dot sa sb idx => BitVec.ofNat 32 (0x00000002 + 0x10 * sa.code + 0x100 * sb.code + 0x1000000 * idx.toNat)
  | .matvec dst sb => BitVec.ofNat 32 (0x00000003 + 0x100 * sb.code + 0x1000 * dst.code)
  | .matvecT dst sb => BitVec.ofNat 32 (0x00010003 + 0x100 * sb.code + 0x1000 * dst.code)
  | .keygen => 0x00000004#32
  | .enc => 0x00000005#32
  | .dec => 0x00000006#32

/-- What the decoder reads from an opcode-table row's word, at the reference dimension (assumption 2). A command is
one 32-bit word (R80), so the table's numbering of the bits is the word's own (R13). -/
def decodeTableWord (nbits w : Nat) : Option Instr :=
  decode Config.reference.n (BitVec.ofNat 32 (w % 2 ^ nbits))

end Sys2Proof
end

