-- ==== Sys2Proof/Machine/State.lean ====
section
/-! DEFINITION. The state: the block's architectural state, field by field as R20 lists it, and beside it the
environment a step reads (the host's script, the order of turns, the random source's answers), which R40 calls
parameters of the step relation. Plain data throughout. (spec/10_state.md, spec/00_scope.md R12) -/

namespace Sys2Proof.Machine

/-- Whether a command is in flight (R23). -/
inductive Phase where
  | idle
  | busy
  deriving DecidableEq, Repr

/-- The recorded error code, 0 to 5 (R25, R191). The numbers are `ErrCode.code` in Machine/Flags.lean. -/
inductive ErrCode where
  | errNone    -- 0
  | errNotBit  -- 1
  | errRange   -- 2
  | errAddr    -- 3
  | errOpcode  -- 4
  | errBusy    -- 5
  deriving DecidableEq, Repr

/-- The three request kinds of the randomness port (R115). -/
inductive DrawKind where
  | bit
  | modq
  | err
  deriving DecidableEq, Repr

/-- One answer of the random source as the port carries it, at the widths of R115. -/
inductive Answer where
  | bit (b : BitVec 1)    -- the bit itself
  | modq (w : BitVec 16)  -- unsigned; the contract says `< Q`
  | err (w : BitVec 2)    -- two's complement; the contract says not `0b10`
  deriving DecidableEq, Repr

/-- The agents that take steps of their own (R12). The fourth, the RandomSource, acts inside `Complete` (R64, R113). -/
inductive Agent where
  | host
  | core
  | reset
  deriving DecidableEq, Repr

/-- A primitive line of a host script (R89). -/
inductive HostLine where
  | wr (a : HostAddr) (v : Word)  -- WR: HostWrite(a, v)
  | rd (a : HostAddr)             -- RD: HostRead(a)
  | cmd (i : Instr)               -- CMD: HostWrite(0x00005, word)
  | wait                          -- WAIT: poll STATUS until bit 0 is 0
  | reset                         -- RESET: the reset event
  | draws (as : List Answer)      -- DRAWS: what the source will answer to the next command's draws; no action
  deriving DecidableEq, Repr

/-- The environment of the block (R40): not its state, but the inputs its steps read, held as data so that one
step is a function of one value. The model's own fields (assumptions 3 to 6). -/
structure Env where
  /-- The lines the host has still to execute, next first (R89). -/
  script : List HostLine
  /-- Whose turn the coming steps are, next first; when it is empty the default of assumption 3 decides (R12). -/
  turns : List Agent
  /-- The words the host's RD lines returned, oldest first (R230). -/
  received : List Word
  /-- The answers stated for the draws of the next command to be accepted (R89, R113). -/
  announced : List Answer
  /-- The answers stated for the draws of the command in flight, in the order of the draws (R113). -/
  answers : List Answer
  /-- How many draws have been taken: the index of the next free draw. -/
  drawCount : Nat
  /-- How many unspecified reads have been made: the index of the next free read word. -/
  freeReads : Nat
  deriving DecidableEq, Repr

/-- The state of one block instance, as R20 lists it, and its environment. -/
structure State where
  /-- `CFG_N` and `CFG_Q`, the configuration registers (R21, R22). -/
  cfg : Config
  /-- `phase` (R23). -/
  phase : Phase
  /-- `CMDL`, the latched command word, hidden from the host (R27). -/
  cmdl : Option Word
  /-- `ERR` (R25). -/
  err : ErrCode
  /-- `ERRINFO` (R26). -/
  errinfo : Word
  /-- `XIN`, held as the host's two's-complement word and read as a signed integer (R28). -/
  xin : Word
  /-- `RES`, an element of `Zq` (R29). -/
  res : Nat
  /-- `PBIT`, an element of `Bit` (R30). -/
  pbit : Bool
  /-- `SV`, an element of `Zq` (R31). -/
  sv : Nat
  /-- `VB`, a mod-Q vector (R32). -/
  vb : List Nat
  /-- `VU`, a mod-Q vector (R33). -/
  vu : List Nat
  /-- `VS`, a binary vector (R34). -/
  vs : List Bool
  /-- `VR`, a binary vector (R35). -/
  vr : List Bool
  /-- `MA`, the matrix, row by row (R36). -/
  ma : List (List Nat)
  /-- The environment (R40). -/
  env : Env
  deriving DecidableEq, Repr

/-- Reasons to stop with a fault: there are none. The block has no traps and nothing halts it; a malformed input is
recorded in `ERR`, which is ordinary state (R190, R211). -/
inductive Fault where
  deriving DecidableEq, Repr

/-- Reasons a step has no meaning. -/
inductive Refusal where
  /-- Raised by `exec` for an instruction without a meaning yet; no arm raises it now. Safe: nothing is claimed. -/
  | notModelled (mnemonic : String)
  /-- Raised by KEYGEN and ENC when the random source breaks the port's contract (R116, R211). Safe: the spec gives
  such an answer no meaning. -/
  | drawOutOfContract
  /-- Raised by the core's turn when `phase = BUSY` and `CMDL` holds no legal word, which no run reaches (R27, R53).
  Safe: the spec gives no meaning to it. -/
  | noLegalCommandLatched
  /-- Raised by DOT's meaning on operands no legal word encodes (R84, R86), which no run reaches: such a word is
  rejected at the `CMD` write. Safe: the spec gives no meaning to it. -/
  | illegalOperands
  deriving DecidableEq, Repr

/-- The environment with nothing in it: no script, no turn fixed, no answer known. -/
def Env.empty : Env :=
  { script := [], turns := [], received := [], announced := [], answers := [], drawCount := 0, freeReads := 0 }

/-- The state after the reset event of a block built with configuration `c` (R42). -/
def State.resetFor (c : Config) : State where
  cfg := c
  phase := .idle
  cmdl := none
  err := .errNone
  errinfo := 0#32
  xin := 0#32
  res := 0
  pbit := false
  sv := 0
  vb := List.replicate c.n 0
  vu := List.replicate c.n 0
  vs := List.replicate c.n false
  vr := List.replicate c.n false
  ma := List.replicate c.n (List.replicate c.n 0)
  env := Env.empty

/-- The machine right after reset, at the reference configuration (R42; assumption 1). -/
def State.reset : State := State.resetFor Config.reference

end Sys2Proof.Machine
end

