-- ==== Sys2Proof/Machine/Flags.lean ====
section
/-! DEFINITION. The status views: the numbers of the error codes and the two condition flags. No command computes a
flag from its arithmetic (R24), so this is every flag the spec gives. (spec/10_state.md R24, R25) -/

namespace Sys2Proof.Machine

/-- The number of an error code (R25, R191). -/
def ErrCode.code : ErrCode → Nat
  | .errNone => 0
  | .errNotBit => 1
  | .errRange => 2
  | .errAddr => 3
  | .errOpcode => 4
  | .errBusy => 5

/-- `STATUS.BUSY`, bit 0 (R24). -/
def busyFlag (s : State) : Bool := s.phase == .busy

/-- `STATUS.ERRF`, bit 1 (R24). -/
def errFlag (s : State) : Bool := s.err != .errNone

/-- `STATUS`: a view of `phase` and `ERR`, bits 31:2 reading 0 (R24, R52). -/
def statusWord (s : State) : Word :=
  BitVec.ofNat 32 ((if busyFlag s then 1 else 0) + 2 * (if errFlag s then 1 else 0))

end Sys2Proof.Machine
end

