-- ==== Sys2Proof/Machine/Operands.lean ====
section
/-! DEFINITION. Every operand form: the elements of the operand storage, the vectors the selectors name, the named
locations of the host space, and the draws a command takes from the randomness port.
(spec/30_encoding.md R83, R85, spec/20_memory.md R51, R54, R55, spec/40_randomness_port.md) -/

namespace Sys2Proof.Machine

/-! ## Elements (R17: a binary element counts as 0 or 1) -/

/-- The integer a bit stands for (R17). -/
def bitVal (b : Bool) : Nat := if b then 1 else 0

def vbAt (s : State) (k : Nat) : Nat := s.vb.getD k 0
def vuAt (s : State) (k : Nat) : Nat := s.vu.getD k 0
def vsAt (s : State) (k : Nat) : Nat := bitVal (s.vs.getD k false)
def vrAt (s : State) (k : Nat) : Nat := bitVal (s.vr.getD k false)

/-- `MA[i][j]`: row `i`, column `j` (R36). -/
def maAt (s : State) (i j : Nat) : Nat := (s.ma.getD i []).getD j 0

/-- `XIN` as the signed integer MODRED reduces: `sext_32` of its word (R16, R28). -/
def xinValue (s : State) : Int := s.xin.toInt

/-! ## Selectors (R83) -/

/-- `Vec(sel, idx)[k]` for an operand of DOT: both matrix selectors use the one `IDX` (R83, R85). -/
def vec (s : State) (sel : VecSel) (idx : BitVec 8) (k : Nat) : Nat :=
  match sel with
  | .vb => vbAt s k
  | .vu => vuAt s k
  | .vs => vsAt s k
  | .vr => vrAt s k
  | .mrow => maAt s idx.toNat k
  | .mcol => maAt s k idx.toNat

/-- `Vec(sel, 0)[k]` for the vector operand of MATVEC (R83, R141). -/
def srcVec (s : State) (sel : SrcSel) (k : Nat) : Nat :=
  match sel with
  | .vb => vbAt s k
  | .vu => vuAt s k
  | .vs => vsAt s k
  | .vr => vrAt s k

/-- Write the whole destination vector of MATVEC (R83, R141). -/
def setDst (s : State) (dst : DstSel) (y : List Nat) : State :=
  match dst with
  | .vb => { s with vb := y }
  | .vu => { s with vu := y }

/-! ## The host space (R51, R55) -/

/-- What stands at a host address, before any index is held against `N`. -/
inductive Loc where
  | cfgN | cfgQ | status | err | errinfo | cmd
  | xin | res | pbit | sv
  | vb (k : Nat) | vu (k : Nat) | vs (k : Nat) | vr (k : Nat)
  | ma (i j : Nat)
  | unmapped
  deriving DecidableEq, Repr

/-- The registers at the bottom of the map (R51). -/
def locateRegister : Nat → Loc
  | 0 => .cfgN
  | 1 => .cfgQ
  | 2 => .status
  | 3 => .err
  | 4 => .errinfo
  | 5 => .cmd
  | 6 => .xin
  | 7 => .res
  | 8 => .pbit
  | 9 => .sv
  | _ => .unmapped

/-- The address map: the matrix window is the upper half; below it the page number picks the registers, a vector
window or nothing, and the low 8 bits are the element index (R51, R55). -/
def locate (a : HostAddr) : Loc :=
  if 0x10000 ≤ a.toNat then .ma (a.toNat / 256 % 256) (a.toNat % 256)
  else match a.toNat / 256 with
    | 0 => locateRegister a.toNat
    | 1 => .vb (a.toNat % 256)
    | 2 => .vu (a.toNat % 256)
    | 3 => .vs (a.toNat % 256)
    | 4 => .vr (a.toNat % 256)
    | _ => .unmapped

/-- The address of element `k` of the vector window at `base`. An index no window has (`k >= 256`) has no address
either; the model's choice for it is the unmapped address of `Loc.unmapped`, so that a write there is the `ERR_ADDR`
of R187 and not a write to the next window (R51, R55; assumption 23). -/
def windowAddr (base k : Nat) : HostAddr := if k < 256 then BitVec.ofNat 17 (base + k) else 0x0000A#17

/-- The address of a named location (R51). -/
def Loc.addr : Loc → HostAddr
  | .cfgN => 0x00000#17
  | .cfgQ => 0x00001#17
  | .status => 0x00002#17
  | .err => 0x00003#17
  | .errinfo => 0x00004#17
  | .cmd => 0x00005#17
  | .xin => 0x00006#17
  | .res => 0x00007#17
  | .pbit => 0x00008#17
  | .sv => 0x00009#17
  | .vb k => windowAddr 0x00100 k
  | .vu k => windowAddr 0x00200 k
  | .vs k => windowAddr 0x00300 k
  | .vr k => windowAddr 0x00400 k
  | .ma i j => if i < 256 then windowAddr (0x10000 + 256 * i) j else 0x0000A#17
  | .unmapped => 0x0000A#17

/-! ## The draws of a command (R110 to R119) -/

/-- The requests a command makes of the randomness port, in order (R113). -/
def drawKinds (n : Nat) : Instr → List DrawKind
  | .keygen => List.replicate n .bit ++ List.replicate (n * n) .modq ++ [.err]
  | .enc => List.replicate n .bit
  | .modred => []
  | .dot _ _ _ => []
  | .matvec _ _ => []
  | .matvecT _ _ => []
  | .dec => []

/-- An answer keeps the port's contract for a request: it is of the request's kind and in its domain (R115, R116). -/
def answerFits (q : Nat) : DrawKind → Answer → Bool
  | .bit, .bit _ => true
  | .modq, .modq w => decide (w.toNat < q)
  | .err, .err w => w != 0b10#2
  | _, _ => false

/-- The source's known answers keep the contract for a list of requests; a request past them is answered by a free
value, which is in its domain by its type (R114, R116). -/
def contractKept (q : Nat) : List DrawKind → List Answer → Bool
  | _, [] => true
  | [], _ :: _ => true
  | k :: ks, a :: as => answerFits q k a && contractKept q ks as

/-- `RandBit()` as the `k`-th draw from now (R110, R115). -/
def drawBit (s : State) (k : Nat) : Bool :=
  match s.env.answers[k]? with
  | some (.bit b) => b == 1#1
  | some (.modq _) | some (.err _) | none => Config.freeBit (s.env.drawCount + k)

/-- `RandMod(Q)` as the `k`-th draw from now (R111, R115). -/
def drawModq (s : State) (k : Nat) : Nat :=
  match s.env.answers[k]? with
  | some (.modq w) => w.toNat
  | some (.bit _) | some (.err _) | none => (Config.freeModq (s.cfg.q - 1) (s.env.drawCount + k)).val

/-- The answer encoding of an error draw: `0b11` is -1, `0b00` is 0, `0b01` is +1 (R115). -/
def err3OfAnswer (w : BitVec 2) : Err3 :=
  if w = 0b11#2 then .neg else if w = 0b01#2 then .pos else .zero

/-- `RandErr()` as the `k`-th draw from now (R112, R115). -/
def drawErr (s : State) (k : Nat) : Err3 :=
  match s.env.answers[k]? with
  | some (.err w) => err3OfAnswer w
  | some (.bit _) | some (.modq _) | none => Config.freeErr (s.env.drawCount + k)

/-- The integer an error draw stands for (R17). -/
def err3Val : Err3 → Int
  | .neg => -1
  | .zero => 0
  | .pos => 1

/-- `randomBinaryVector(n)` beginning at draw `start`: element `k` is the `k`-th call (R117). -/
def drawBinaryVector (s : State) (start n : Nat) : List Bool :=
  (List.range n).map fun k => drawBit s (start + k)

/-- `randomMatrix(n, n, Q)` beginning at draw `start`, row-major (R118). -/
def drawMatrix (s : State) (start n : Nat) : List (List Nat) :=
  (List.range n).map fun i => (List.range n).map fun j => drawModq s (start + n * i + j)

/-- The draws are taken: the answers stated for this command are used up, whatever is left of them answers no other
(assumption 13), and the index of the next free draw grows (R113; assumption 5). -/
def consumeDraws (s : State) (m : Nat) : State :=
  { s with env := { s.env with answers := [], drawCount := s.env.drawCount + m } }

end Sys2Proof.Machine
end

