-- ==== Sys2Proof/Machine/Ops.lean ====
section
/-! DEFINITION. The operations the meanings share: the modular arithmetic, recording an error and clearing it (this
hardware's form of taking an exception and returning from one), the host's read and write, finishing a command, and
the reset event. (spec/41 to spec/43, spec/60_exceptions.md, spec/20_memory.md, spec/70_reset_and_hazards.md) -/

namespace Sys2Proof.Machine

/-! ## Modular arithmetic (R120, R130, R140) -/

/-- `HALF = floor(Q/2)` (R9). -/
def half (q : Nat) : Nat := q / 2

/-- `W = ceil(log2(Q))`, the bits a value of `[0, Q)` needs (R9). -/
def elementWidth (q : Nat) : Nat := (q - 1).log2 + 1

/-- `modq(x)`: the true modulo, in `[0, Q)` for every integer (R15, R120). -/
def modq (q : Nat) (x : Int) : Nat := (x % (q : Int)).toNat

/-- `x rem Q`, the remainder whose sign follows the dividend (R15). -/
def rem (q : Nat) (x : Int) : Int := Int.tmod x q

/-- The reduction as the unit's three stages spell it (R121). No meaning uses it: the stages are not observable. -/
def modqStages (q : Nat) (x : Int) : Int := rem q (rem q x + q)

/-- `sum(k in 0..n-1) f(k)` over exact integers (R14). -/
def sumBelow : Nat → (Nat → Int) → Int
  | 0, _ => 0
  | n + 1, f => sumBelow n f + f n

/-- `dot(a, b)`: one reduction, of the whole sum (R123, R130). -/
def dot (n q : Nat) (a b : Nat → Nat) : Nat := modq q (sumBelow n fun k => (a k : Int) * (b k : Int))

/-- `matvec(M, x)`: element `i` is the inner product of row `i` and `x` (R140). -/
def matvec (n q : Nat) (m : Nat → Nat → Nat) (x : Nat → Nat) : List Nat :=
  (List.range n).map fun i => dot n q (m i) x

/-- `matvecT(M, x)`: element `j` is the inner product of column `j` and `x` (R140). -/
def matvecT (n q : Nat) (m : Nat → Nat → Nat) (x : Nat → Nat) : List Nat :=
  (List.range n).map fun j => dot n q (fun i => m i j) x

/-! ## Recording an error, and the return from one (R197, R199) -/

/-- `raise ERR_x(info)`: sticky, the first error wins, and nothing else changes (R197). -/
def raiseError (s : State) (e : ErrCode) (info : Word) : State :=
  if s.err = .errNone then { s with err := e, errinfo := info } else s

/-- The host's write to `ERR` clears the record, in either phase (R25, R199). -/
def clearError (s : State) : State := { s with err := .errNone, errinfo := 0#32 }

/-! ## The host's read (R52, R54, R55, R59) -/

/-- The word of a location of the operand storage, phase aside: `zext_32` of the element, 0 where there is none
(R52, R54, R55). -/
def operandWord (s : State) : Loc → Word
  | .xin => s.xin
  | .res => BitVec.ofNat 32 s.res
  | .pbit => BitVec.ofNat 32 (bitVal s.pbit)
  | .sv => BitVec.ofNat 32 s.sv
  | .vb k => if k < s.cfg.n then BitVec.ofNat 32 (vbAt s k) else 0#32
  | .vu k => if k < s.cfg.n then BitVec.ofNat 32 (vuAt s k) else 0#32
  | .vs k => if k < s.cfg.n then BitVec.ofNat 32 (vsAt s k) else 0#32
  | .vr k => if k < s.cfg.n then BitVec.ofNat 32 (vrAt s k) else 0#32
  | .ma i j => if i < s.cfg.n ∧ j < s.cfg.n then BitVec.ofNat 32 (maAt s i j) else 0#32
  | .cfgN | .cfgQ | .status | .err | .errinfo | .cmd | .unmapped => 0#32

/-- The addresses that read normally in either phase (R59). -/
def readsNormallyWhileBusy : Loc → Bool
  | .cfgN | .cfgQ | .status | .err | .errinfo | .cmd => true
  | .xin | .res | .pbit | .sv | .vb _ | .vu _ | .vs _ | .vr _ | .ma _ _ | .unmapped => false

/-- A host read of `a` returns an unspecified word now (R59). -/
def readIsUnspecified (s : State) (a : HostAddr) : Bool :=
  s.phase == .busy && !readsNormallyWhileBusy (locate a)

/-- The word a host read of `a` finds where the spec fixes it (R52). -/
def definedWord (s : State) (a : HostAddr) : Word :=
  match locate a with
  | .cfgN => BitVec.ofNat 32 s.cfg.n
  | .cfgQ => BitVec.ofNat 32 s.cfg.q
  | .status => statusWord s
  | .err => BitVec.ofNat 32 s.err.code
  | .errinfo => s.errinfo
  | .cmd => 0#32
  | l => operandWord s l

/-- `HostRead(a)`: the word returned. It is a function of the state alone, a free word where R59 leaves it open, and
changes nothing (R52, R58). -/
def hostRead (s : State) (a : HostAddr) : Word :=
  if readIsUnspecified s a then Config.freeReadWord s.env.freeReads else definedWord s a

/-! ## The host's write (R53, R192 to R198) -/

/-- An address as error information: zero-extended to a word (R26). -/
def addrInfo (a : HostAddr) : Word := a.setWidth 32

/-- The write of a binary element: a word above 1 is rejected (R54, R192). -/
def writeBit (s : State) (a : HostAddr) (v : Word) (store : Bool → State) : State :=
  if v.toNat > 1 then raiseError s .errNotBit (addrInfo a) else store (v.toNat == 1)

/-- The write of a mod-Q element: a word `>= Q` is rejected, not reduced (R54, R193). -/
def writeZq (s : State) (a : HostAddr) (v : Word) (store : Nat → State) : State :=
  if v.toNat ≥ s.cfg.q then raiseError s .errRange (addrInfo a) else store v.toNat

/-- The write of an element of a window: an index that exists, or an address error before the value is looked at
(R55, R194, R198). -/
def writeIfIndexed (s : State) (a : HostAddr) (exists_ : Bool) (write : State) : State :=
  if exists_ then write else raiseError s .errAddr (addrInfo a)

/-- A write to `CMD` in the idle phase: a legal word is latched, any other rejected (R53 step 3, R195). -/
def writeCommand (s : State) (v : Word) : State :=
  if legal s.cfg.n v then { s with cmdl := some v, phase := .busy } else raiseError s .errOpcode v

/-- Steps 3 to 5 of `HostWrite`, reached in the idle phase (R53). -/
def hostWriteIdle (s : State) (a : HostAddr) (v : Word) : State :=
  match locate a with
  | .cmd => writeCommand s v
  | .xin => { s with xin := v }
  | .pbit => writeBit s a v fun b => { s with pbit := b }
  | .sv => writeZq s a v fun x => { s with sv := x }
  | .vb k => writeIfIndexed s a (k < s.cfg.n) (writeZq s a v fun x => { s with vb := s.vb.set k x })
  | .vu k => writeIfIndexed s a (k < s.cfg.n) (writeZq s a v fun x => { s with vu := s.vu.set k x })
  | .vs k => writeIfIndexed s a (k < s.cfg.n) (writeBit s a v fun b => { s with vs := s.vs.set k b })
  | .vr k => writeIfIndexed s a (k < s.cfg.n) (writeBit s a v fun b => { s with vr := s.vr.set k b })
  | .ma i j =>
    writeIfIndexed s a (i < s.cfg.n && j < s.cfg.n)
      (writeZq s a v fun x => { s with ma := s.ma.set i ((s.ma.getD i []).set j x) })
  | .cfgN | .cfgQ | .status | .err | .errinfo | .res | .unmapped => raiseError s .errAddr (addrInfo a)

/-- `HostWrite(a, v)`: the tests of R53 in its order, clear first, then busy, then the rest (R53, R198). -/
def hostWrite (s : State) (a : HostAddr) (v : Word) : State :=
  if locate a = .err then clearError s
  else if s.phase = .busy then raiseError s .errBusy (addrInfo a)
  else hostWriteIdle s a v

/-! ## Finishing a command (R64) -/

/-- The end of every `Complete` step: `phase <- IDLE`, `CMDL` none (R64). -/
def finish (s : State) : State := { s with phase := .idle, cmdl := none }

/-- The `Complete` step of a command that draws: the draws it makes are taken and its results stored, or the step
has no meaning because the random source broke its contract (R64, R113, R116). -/
def completeWithDraws (s : State) (i : Instr) (results : State) : Host.Outcome State Fault Refusal :=
  if contractKept s.cfg.q (drawKinds s.cfg.n i) s.env.answers then
    .next (finish (consumeDraws results (drawKinds s.cfg.n i).length))
  else .refused .drawOutOfContract

/-! ## Reset (R42, R220, R221) -/

/-- The reset event: every piece of the block's state at its reset value, the configuration kept, and the
environment, which is not the block's, as it stands; the answers stated for an abandoned command answer no other,
because accepting a command replaces them (R220, R221; assumption 15). -/
def resetEvent (s : State) : State := { State.resetFor s.cfg with env := s.env }

end Sys2Proof.Machine
end

