-- ==== Sys2Proof/Machine/LinearAlgebra.lean ====
section
/-! DEFINITION. The lower layer: the `Complete` steps of MODRED, DOT, MATVEC and MATVEC.T.
(spec/41_modular_reduction.md, spec/42_inner_product.md, spec/43_matrix_vector.md) -/

namespace Sys2Proof.Machine

/-- MODRED: `RES <- modq(XIN)` (R122). -/
def execModred (s : State) : Host.Outcome State Fault Refusal :=
  .next (finish { s with res := modq s.cfg.q (xinValue s) })

/-- DOT: `RES <- dot(Vec(SA, IDX), Vec(SB, IDX))` (R131). -/
def execDot (sa sb : VecSel) (idx : BitVec 8) (s : State) : Host.Outcome State Fault Refusal :=
  if (Instr.dot sa sb idx).wf s.cfg.n then
    .next (finish { s with res := dot s.cfg.n s.cfg.q (vec s sa idx) (vec s sb idx) })
  else .refused .illegalOperands

/-- MATVEC: the destination becomes `matvec(MA, Vec(SB, 0))`, every element of the operand read first (R141). -/
def execMatvec (dst : DstSel) (sb : SrcSel) (s : State) : Host.Outcome State Fault Refusal :=
  .next (finish (setDst s dst (matvec s.cfg.n s.cfg.q (maAt s) (srcVec s sb))))

/-- MATVEC.T: the same with the transpose of `MA` (R141). -/
def execMatvecT (dst : DstSel) (sb : SrcSel) (s : State) : Host.Outcome State Fault Refusal :=
  .next (finish (setDst s dst (matvecT s.cfg.n s.cfg.q (maAt s) (srcVec s sb))))

end Sys2Proof.Machine
end

