-- ==== Sys2Proof/Machine/Lwe.lean ====
section
/-! DEFINITION. The upper layer: the `Complete` steps of KEYGEN, ENC and DEC.
(spec/44_lwe_keygen.md, spec/45_lwe_encrypt.md, spec/46_lwe_decrypt.md) -/

namespace Sys2Proof.Machine

/-- The public vector of a key: one error scalar added in every row, one reduction per row (R150, R151, R152). -/
def publicVector (n q : Nat) (m : List (List Nat)) (key : List Bool) (e : Int) : List Nat :=
  (List.range n).map fun i =>
    modq q (sumBelow n (fun j => ((m.getD i []).getD j 0 : Int) * (bitVal (key.getD j false) : Int)) + e)

/-- What KEYGEN stores: `VS`, `MA` and `VB` from its draws alone; the error term is stored nowhere (R39, R150). -/
def keygenResults (s : State) : State :=
  let n := s.cfg.n
  let key := drawBinaryVector s 0 n
  let m := drawMatrix s n n
  { s with vs := key, ma := m, vb := publicVector n s.cfg.q m key (err3Val (drawErr s (n + n * n))) }

/-- KEYGEN (R150). -/
def execKeygen (s : State) : Host.Outcome State Fault Refusal :=
  completeWithDraws s .keygen (keygenResults s)

/-- The scalar of a ciphertext: `modq(sum VB[i]*r[i] + HALF*PBIT)` (R160). -/
def cipherScalar (s : State) (r : List Bool) : Nat :=
  modq s.cfg.q
    (sumBelow s.cfg.n (fun i => (vbAt s i : Int) * (bitVal (r.getD i false) : Int))
      + (half s.cfg.q : Int) * (bitVal s.pbit : Int))

/-- What ENC stores: a fresh `r` in `VR`, `u = A^T r` in `VU`, `v` in `SV` (R160, R161). -/
def encResults (s : State) : State :=
  let r := drawBinaryVector s 0 s.cfg.n
  { s with
    vr := r
    vu := matvecT s.cfg.n s.cfg.q (maAt s) (fun i => bitVal (r.getD i false))
    sv := cipherScalar s r }

/-- ENC (R160). -/
def execEnc (s : State) : Host.Outcome State Fault Refusal :=
  completeWithDraws s .enc (encResults s)

/-- The decision of DEC: 0 when `4*|diff| < Q`, strictly and exactly, else 1; `diff` is not reduced (R170 to R172). -/
def decideBit (q : Nat) (diff : Int) : Nat := if 4 * diff.natAbs < q then 0 else 1

/-- DEC: `inner = dot(VU, VS)`, `diff = SV - inner`, and the decision into `RES` (R170). -/
def execDec (s : State) : Host.Outcome State Fault Refusal :=
  .next (finish { s with
    res := decideBit s.cfg.q ((s.sv : Int) - (dot s.cfg.n s.cfg.q (vuAt s) (vsAt s) : Int)) })

end Sys2Proof.Machine
end

