-- ==== Sys2Proof/Machine/Dispatch.lean ====
section
/-! DEFINITION. The effect of each command's `Complete` step, one arm per constructor. -/

namespace Sys2Proof.Machine

def exec (i : Instr) (s : State) : Host.Outcome State Fault Refusal :=
  match i with
  -- the lower layer: modular linear algebra
  | .modred => Sys2Proof.Machine.execModred s
  | .dot sa sb idx => Sys2Proof.Machine.execDot sa sb idx s
  | .matvec dst sb => Sys2Proof.Machine.execMatvec dst sb s
  | .matvecT dst sb => Sys2Proof.Machine.execMatvecT dst sb s
  -- the upper layer: the LWE cryptosystem
  | .keygen => Sys2Proof.Machine.execKeygen s
  | .enc => Sys2Proof.Machine.execEnc s
  | .dec => Sys2Proof.Machine.execDec s

end Sys2Proof.Machine
end

