-- ==== Sys2Proof/Machine/Agents.lean ====
section
/-! DEFINITION. The agents' steps: whose turn it is, what the host does on its turn, what the core does on its.
(spec/00_scope.md R11, R12, spec/20_memory.md R61, R64, spec/30_encoding.md R89) -/

namespace Sys2Proof.Machine

/-- Whose step comes next: the first turn listed; with none listed, the core while a command is in flight, else the
host (R12, R64; assumption 3). -/
def nextAgent (s : State) : Agent :=
  match s.env.turns with
  | a :: _ => a
  | [] => match s.phase with
    | .busy => .core
    | .idle => .host

/-- The turn is taken. -/
def takeTurn (s : State) : State := { s with env := { s.env with turns := s.env.turns.drop 1 } }

/-- The lines the host has still to execute. -/
def setScript (s : State) (ls : List HostLine) : State := { s with env := { s.env with script := ls } }

/-- DRAWS: what the source will answer to the next command's draws, in order (R89, R113). -/
def announce (s : State) (as : List Answer) : State := { s with env := { s.env with announced := as } }

/-- The answers stated for the next command become those of the command just accepted, and of no other
(R89, R113; assumption 13). -/
def bindDraws (s : State) : State :=
  { s with env := { s.env with answers := s.env.announced, announced := [] } }

/-- A host write of `v` to `a` starts a command (R53 step 3). -/
def startsCommand (s : State) (a : HostAddr) (v : Word) : Bool :=
  s.phase == .idle && locate a == .cmd && legal s.cfg.n v

/-- WR and CMD: the write, and where it starts a command the answers stated for that command (R53, R89). -/
def hostWriteLine (s : State) (a : HostAddr) (v : Word) : State :=
  if startsCommand s a v then bindDraws (hostWrite s a v) else hostWrite s a v

/-- RD: the word read is received; an unspecified word uses up one free value, and the block is as it was
(R52, R59, R230). -/
def hostReadLine (s : State) (a : HostAddr) : State :=
  { s with env := { s.env with
      received := s.env.received ++ [hostRead s a]
      freeReads := s.env.freeReads + (if readIsUnspecified s a then 1 else 0) } }

/-- WAIT's poll finds bit 0 of `STATUS` at 0 (R89, R223). -/
def pollFindsIdle (s : State) : Bool := !(hostRead s Loc.status.addr).getLsbD 0

/-- The host's next action, of the lines `ls`. A DRAWS line is not an action (R89): it is heard on the way to the
line after it and takes no step of its own, and a later one before the same command replaces it (assumption 13).
A WAIT is one poll a turn; with no line left there is nothing to do (R89, R230; assumptions 4 and 14). -/
def hostAct : List HostLine → State → State
  | [], s => setScript s []
  | .wr a v :: ls, s => hostWriteLine (setScript s ls) a v
  | .rd a :: ls, s => hostReadLine (setScript s ls) a
  | .cmd i :: ls, s => hostWriteLine (setScript s ls) Loc.cmd.addr (encode i)
  | .wait :: ls, s => if pollFindsIdle s then setScript s ls else setScript s (.wait :: ls)
  | .reset :: ls, s => resetEvent (setScript s ls)
  | .draws as :: ls, s => hostAct ls (announce s as)

/-- One turn of the host (R12, R89). -/
def hostTurn (s : State) : State := hostAct s.env.script s

/-- One turn of the core: `Complete` while a command is in flight, nothing otherwise (R64; assumption 16). -/
def coreTurn (s : State) : Host.Outcome State Fault Refusal :=
  match s.phase with
  | .idle => .next s
  | .busy =>
    match s.cmdl.bind (decode s.cfg.n) with
    | some i => exec i s
    | none => .refused .noLegalCommandLatched

/-- A command word latched as an accepted `CMD` line leaves it, the answers stated for it with it, and the core's turn
next: what `State.withFetchWord` sets (R27, R53 step 3; assumption 10). -/
def latchForCore (s : State) (cw : Word) : State :=
  { s with phase := .busy, cmdl := some cw, env := { s.env with
      turns := .core :: s.env.turns, answers := s.env.announced, announced := [] } }

end Sys2Proof.Machine
end

