-- ==== Sys2Proof/Machine/Step.lean ====
section
/-! DEFINITION. One step of the machine: the agent whose turn it is acts. (spec/00_scope.md R11, R12) -/

namespace Sys2Proof.Machine

/-- One step (R11, R12): a host access, the completion of a command, or a reset. -/
def step (s : State) : Host.Outcome State Fault Refusal :=
  match nextAgent s with
  | .host => .next (hostTurn (takeTurn s))
  | .core => coreTurn (takeTurn s)
  | .reset => .next (resetEvent (takeTurn s))

/-- The state in which the very next step runs the command word `w`: the word latched and the core's turn
(assumption 10). -/
def State.withFetchWord (s : State) (nbits w : Nat) : State :=
  latchForCore s (BitVec.ofNat 32 (w % 2 ^ nbits))

end Sys2Proof.Machine
end

