-- ==== Sys2Proof/Machine/HostScript.lean ====
section
/-! DEFINITION. The host's script syntax: the assembler of command lines, the spelling of lines, and the pseudo-lines
with their expansions. (spec/30_encoding.md R88 to R90) -/

namespace Sys2Proof.Machine

/-! ## Command syntax (R88) -/

/-- An operand `sa` or `sb` of a DOT line: a matrix selector carries its decimal index (R88). -/
inductive VecOperand where
  | vb | vu | vs | vr
  | mrow (i : Nat)
  | mcol (i : Nat)
  deriving DecidableEq, Repr

/-- A command line after its mnemonic is read (R88). -/
inductive AsmCommand where
  | modred
  | dot (sa sb : VecOperand)
  | matvec (dst : DstSel) (sb : SrcSel)
  | matvecT (dst : DstSel) (sb : SrcSel)
  | keygen
  | enc
  | dec
  deriving DecidableEq, Repr

def VecOperand.sel : VecOperand → VecSel
  | .vb => .vb
  | .vu => .vu
  | .vs => .vs
  | .vr => .vr
  | .mrow _ => .mrow
  | .mcol _ => .mcol

/-- The index an operand brings, if it has one. -/
def VecOperand.index? : VecOperand → Option Nat
  | .mrow i => some i
  | .mcol i => some i
  | .vb => none
  | .vu => none
  | .vs => none
  | .vr => none

/-- The `IDX` of two operands: 0 when neither has an index, and no index (the line does not assemble) when they have
two that differ (R88). -/
def sharedIndex : Option Nat → Option Nat → Option Nat
  | none, none => some 0
  | some i, none => some i
  | none, some j => some j
  | some i, some j => if i = j then some i else none

/-- A DOT line: the index must fit the 8-bit field (R81, R88; assumption 17). -/
def assembleDot (sa sb : VecOperand) : Option Instr :=
  match sharedIndex sa.index? sb.index? with
  | some i => if i < 256 then some (.dot sa.sel sb.sel (BitVec.ofNat 8 i)) else none
  | none => none

/-- The command a line assembles to, none where it does not assemble (R88). -/
def assemble : AsmCommand → Option Instr
  | .modred => some .modred
  | .dot sa sb => assembleDot sa sb
  | .matvec dst sb => some (.matvec dst sb)
  | .matvecT dst sb => some (.matvecT dst sb)
  | .keygen => some .keygen
  | .enc => some .enc
  | .dec => some .dec

/-- The operand of a DOT line for a selector and the index of the word (R88). -/
def operandOf (sel : VecSel) (idx : BitVec 8) : VecOperand :=
  match sel with
  | .vb => .vb
  | .vu => .vu
  | .vs => .vs
  | .vr => .vr
  | .mrow => .mrow idx.toNat
  | .mcol => .mcol idx.toNat

/-- The command line of a command (R88). -/
def disassemble : Instr → AsmCommand
  | .modred => .modred
  | .dot sa sb idx => .dot (operandOf sa idx) (operandOf sb idx)
  | .matvec dst sb => .matvec dst sb
  | .matvecT dst sb => .matvecT dst sb
  | .keygen => .keygen
  | .enc => .enc
  | .dec => .dec

/-! ## The spelling of lines (R88, R89) -/

def VecOperand.spell : VecOperand → String
  | .vb => "VB"
  | .vu => "VU"
  | .vs => "VS"
  | .vr => "VR"
  | .mrow i => "MROW[" ++ toString i ++ "]"
  | .mcol i => "MCOL[" ++ toString i ++ "]"

def SrcSel.spell : SrcSel → String
  | .vb => "VB"
  | .vu => "VU"
  | .vs => "VS"
  | .vr => "VR"

def DstSel.spell : DstSel → String
  | .vb => "VB"
  | .vu => "VU"

/-- The syntax column of R88. -/
def AsmCommand.spell : AsmCommand → String
  | .modred => "MODRED"
  | .dot sa sb => "DOT " ++ sa.spell ++ ", " ++ sb.spell
  | .matvec dst sb => "MATVEC " ++ DstSel.spell dst ++ ", " ++ SrcSel.spell sb
  | .matvecT dst sb => "MATVEC.T " ++ DstSel.spell dst ++ ", " ++ SrcSel.spell sb
  | .keygen => "KEYGEN"
  | .enc => "ENC"
  | .dec => "DEC"

/-- The name of a location in a script line (R51, R89); an unmapped address is written as a number. -/
def spellAddr (a : HostAddr) : String :=
  match locate a with
  | .cfgN => "CFG_N"
  | .cfgQ => "CFG_Q"
  | .status => "STATUS"
  | .err => "ERR"
  | .errinfo => "ERRINFO"
  | .cmd => "CMD"
  | .xin => "XIN"
  | .res => "RES"
  | .pbit => "PBIT"
  | .sv => "SV"
  | .vb k => "VB[" ++ toString k ++ "]"
  | .vu k => "VU[" ++ toString k ++ "]"
  | .vs k => "VS[" ++ toString k ++ "]"
  | .vr k => "VR[" ++ toString k ++ "]"
  | .ma i j => "MA[" ++ toString i ++ "][" ++ toString j ++ "]"
  | .unmapped => toString a.toNat

/-- The host word of a number, none where it has none: the spec does not say what a line with such a number does, and
the model's choice is that there is no such line (R89; assumption 24). -/
def wordOfNat? (x : Nat) : Option Word := if x < 2 ^ 32 then some (BitVec.ofNat 32 x) else none

/-- The value of a WR line as a host word: a negative decimal is for `XIN` only, and is its two's-complement word
(R89; assumption 24). -/
def wordOfValue? (l : Loc) (x : Int) : Option Word :=
  if 0 ≤ x then wordOfNat? x.toNat
  else if l = .xin ∧ -2 ^ 31 ≤ x then some (BitVec.ofInt 32 x) else none

def Answer.spell : Answer → String
  | .bit b => toString b.toNat
  | .modq w => toString w.toNat
  | .err w => toString w.toInt

/-- A primitive line as R89 writes it, values in decimal. -/
def HostLine.spell : HostLine → String
  | .wr a v => "WR " ++ spellAddr a ++ ", " ++ toString v.toNat
  | .rd a => "RD " ++ spellAddr a
  | .cmd i => "CMD " ++ (disassemble i).spell
  | .wait => "WAIT"
  | .reset => "RESET"
  | .draws as => "DRAWS " ++ String.intercalate ", " (as.map Answer.spell)

/-! ## Pseudo-lines (R90) -/

/-- A pseudo-line, its numbers read as host words (R89, R90). -/
inductive PseudoLine where
  | clrErr                                    -- CLRERR
  | ldv (v : SrcSel) (xs : List Word)         -- LDV vec, [x0, ...]
  | ldm (rows : List (List Word))             -- LDM [[row 0], ...]
  | rdv (v : SrcSel)                          -- RDV vec
  | rdm                                       -- RDM
  | genKeys                                   -- GENKEYS
  | encBit (b : Bool)                         -- ENCBIT b
  | decBit (u : List Word) (v : Word)         -- DECBIT [u0, ...], v
  deriving DecidableEq, Repr

/-- The location `vec[k]` (R51). -/
def elementLoc (v : SrcSel) (k : Nat) : Loc :=
  match v with
  | .vb => .vb k
  | .vu => .vu k
  | .vs => .vs k
  | .vr => .vr k

def writeLine (l : Loc) (x : Word) : HostLine := .wr l.addr x

def readLine (l : Loc) : HostLine := .rd l.addr

/-- The word of a bit (R54). -/
def bitWord (b : Bool) : Word := BitVec.ofNat 32 (bitVal b)

/-- `LDV`: the elements in index order (R90). -/
def loadVector (v : SrcSel) (xs : List Word) : List HostLine :=
  xs.zipIdx.map fun p => writeLine (elementLoc v p.2) p.1

/-- `LDM`: row by row, in a row column by column (R90). -/
def loadMatrix (rows : List (List Word)) : List HostLine :=
  rows.zipIdx.flatMap fun r => r.1.zipIdx.map fun p => writeLine (.ma r.2 p.2) p.1

/-- `RDV`: the elements in index order (R90). -/
def readVector (n : Nat) (v : SrcSel) : List HostLine :=
  (List.range n).map fun k => readLine (elementLoc v k)

/-- `RDM`: in the order of `LDM` (R90). -/
def readMatrix (n : Nat) : List HostLine :=
  (List.range n).flatMap fun i => (List.range n).map fun j => readLine (.ma i j)

/-- The expansion column of R90, at dimension `n`. -/
def PseudoLine.expand (n : Nat) : PseudoLine → List HostLine
  | .clrErr => [writeLine .err 0#32]
  | .ldv v xs => loadVector v xs
  | .ldm rows => loadMatrix rows
  | .rdv v => readVector n v
  | .rdm => readMatrix n
  | .genKeys => [.cmd .keygen, .wait] ++ readMatrix n ++ readVector n .vb ++ readVector n .vs
  | .encBit b => [writeLine .pbit (bitWord b), .cmd .enc, .wait] ++ readVector n .vu ++ [readLine .sv]
  | .decBit u v => loadVector .vu u ++ [writeLine .sv v, .cmd .dec, .wait, readLine .res]

end Sys2Proof.Machine
end

