-- ==== Sys2Proof/Safety.lean ====
section
/-! DEFINITION. The terms claims use: the invariant of the machine, a random source that keeps its contract, the end
of a run, what each command may overwrite. (spec/10_state.md R41, spec/70_reset_and_hazards.md R226, R230) -/

namespace Sys2Proof.Machine

/-- The operand storage has its shape (`N` elements, `N` rows of `N`) and every element is in its domain (R32 to
R36, R41). This is the storage's canonical form: with it, equal contents are equal data. -/
abbrev State.StorageOk (s : State) : Prop :=
  (s.vb.length = s.cfg.n ∧ s.vu.length = s.cfg.n ∧ s.vs.length = s.cfg.n ∧ s.vr.length = s.cfg.n
    ∧ s.ma.length = s.cfg.n ∧ ∀ row ∈ s.ma, row.length = s.cfg.n)
  ∧ (s.res < s.cfg.q ∧ s.sv < s.cfg.q ∧ (∀ x ∈ s.vb, x < s.cfg.q) ∧ (∀ x ∈ s.vu, x < s.cfg.q)
    ∧ ∀ row ∈ s.ma, ∀ x ∈ row, x < s.cfg.q)

/-- The control state is coherent: a command is latched exactly while `BUSY`, and it is a legal one (R23, R27). -/
abbrev State.ControlOk (s : State) : Prop :=
  (s.phase = .busy ↔ s.cmdl.isSome = true) ∧ ∀ w ∈ s.cmdl, legal s.cfg.n w = true

/-- What `ERRINFO` can hold beside each code (R26). -/
abbrev State.ErrorOk (s : State) : Prop :=
  match s.err with
  | .errNone => s.errinfo = 0#32
  | .errOpcode => legal s.cfg.n s.errinfo = false
  | .errNotBit | .errRange | .errAddr | .errBusy => s.errinfo.toNat < 2 ^ 17

/-- The invariant of the machine (R41 with R23, R26 and R27). -/
abbrev State.Inv (s : State) : Prop := s.StorageOk ∧ s.ControlOk ∧ s.ErrorOk

/-- The random source keeps its contract for the draws of a command (R115, R116). -/
abbrev State.SourceKeepsContract (s : State) (i : Instr) : Prop :=
  contractKept s.cfg.q (drawKinds s.cfg.n i) s.env.answers = true

/-- The run is over: no line left and no command in flight (R230). -/
abbrev State.RunOver (s : State) : Prop := s.env.script = [] ∧ s.phase = .idle

/-- DRAWS is the one line that is not an action of the host (R89). -/
def HostLine.isAction : HostLine → Bool
  | .draws _ => false
  | .wr _ _ | .rd _ | .cmd _ | .wait | .reset => true

/-- The line the host's next turn executes: the first of its script that is an action (R89). -/
def State.nextHostLine (s : State) : Option HostLine := s.env.script.find? HostLine.isAction

/-- The vector a MATVEC destination names, as locations. -/
def isDstLoc : DstSel → Loc → Bool
  | .vb, .vb _ => true
  | .vu, .vu _ => true
  | _, _ => false

/-- The locations a command overwrites, by the table of R226. -/
def overwrites (i : Instr) (l : Loc) : Bool :=
  match i with
  | .modred => l == .res
  | .dot _ _ _ => l == .res
  | .dec => l == .res
  | .matvec dst _ => isDstLoc dst l
  | .matvecT dst _ => isDstLoc dst l
  | .keygen => match l with
    | .vs _ | .ma _ _ | .vb _ => true
    | _ => false
  | .enc => match l with
    | .vr _ | .vu _ | .sv => true
    | _ => false

/-- The locations whose words a host write can set, at dimension `n` (R53 step 4). -/
def isWritableOperand (n : Nat) : Loc → Bool
  | .xin | .pbit | .sv => true
  | .vb k | .vu k | .vs k | .vr k => decide (k < n)
  | .ma i j => decide (i < n ∧ j < n)
  | .cfgN | .cfgQ | .status | .err | .errinfo | .cmd | .res | .unmapped => false

/-- The words a location accepts: every word for `XIN`, a bit for a binary location, a word below `Q` otherwise
(R28, R54). -/
def accepts (q : Nat) (l : Loc) (v : Word) : Prop :=
  match l with
  | .xin => True
  | .pbit | .vs _ | .vr _ => v.toNat ≤ 1
  | .sv | .vb _ | .vu _ | .ma _ _ => v.toNat < q
  | .cfgN | .cfgQ | .status | .err | .errinfo | .cmd | .res | .unmapped => False

/-! ## A whole round trip: one key, one encryption under it, its decryption (R174) -/

/-- `MA`, `VB`, `VS` are the results of the KEYGEN from `s0`, unchanged when ENC runs from `s2` and (for `VS`) when
DEC runs, from `s4`, on the ciphertext ENC left (R174). -/
structure RoundTrip (s0 s1 s2 s3 s4 s5 : State) : Prop where
  keygen : exec .keygen s0 = .next s1
  keyKept : s2.cfg = s1.cfg ∧ s2.ma = s1.ma ∧ s2.vb = s1.vb
  enc : exec .enc s2 = .next s3
  ciphertextKept : s4.cfg = s3.cfg ∧ s4.vu = s3.vu ∧ s4.sv = s3.sv ∧ s4.vs = s1.vs
  dec : exec .dec s4 = .next s5

/-- The error scalar a KEYGEN from `s` draws: the draw after the key and the matrix (R113, R150). -/
def errorDrawn (s : State) : Int := err3Val (drawErr s (s.cfg.n + s.cfg.n * s.cfg.n))

/-- `w`, the number of ones in `r` (R174). -/
def onesIn (r : List Bool) : Nat := r.count true

/-- `inner = dot(VU, VS)` of DEC (R170). -/
def innerOf (s : State) : Nat := dot s.cfg.n s.cfg.q (vuAt s) (vsAt s)

/-- `diff = SV - inner` of DEC, a signed integer, not reduced (R170, R172). -/
def diffOf (s : State) : Int := (s.sv : Int) - (innerOf s : Int)

end Sys2Proof.Machine
end

