-- ==== Sys2Proof/Machine/HostText.lean ====
section
/-! DEFINITION. Host software around the block: the text codec and the request boundary. No part of the block: it
runs scripts and answers a request by the words they received. (spec/47_host_text_codec.md R180 to R187) -/

namespace Sys2Proof.Machine

/-! ## The text codec (R181, R182). A text is the list of its characters' code points (assumption 18). -/

/-- The 8 bits of a code, most significant first (R181). -/
def charBits (c : Nat) : List Bool :=
  (List.range 8).map fun i => c / 2 ^ (7 - i) % 2 == 1

/-- `encodeTextToBits`: a text with a code point above 255 is refused (R181, R211). -/
def encodeTextToBits (text : List Nat) : Option (List Bool) :=
  if text.all (fun c => c ≤ 255) then some (text.flatMap charBits) else none

/-- The code of a group of 8 bits (R182). -/
def groupCode (g0 g1 g2 g3 g4 g5 g6 g7 : Bool) : Nat :=
  128 * bitVal g0 + 64 * bitVal g1 + 32 * bitVal g2 + 16 * bitVal g3
    + 8 * bitVal g4 + 4 * bitVal g5 + 2 * bitVal g6 + bitVal g7

/-- `decodeBitsToText`: a length that is no multiple of 8 is malformed and gives no text (R182). -/
def decodeBitsToText : List Bool → Option (List Nat)
  | [] => some []
  | g0 :: g1 :: g2 :: g3 :: g4 :: g5 :: g6 :: g7 :: rest =>
    (decodeBitsToText rest).map fun text => groupCode g0 g1 g2 g3 g4 g5 g6 g7 :: text
  | _ => none

/-! ## The request boundary (R183 to R187) -/

structure PublicKey where
  a : List (List Nat)
  b : List Nat
  deriving DecidableEq, Repr

structure Ciphertext where
  u : List Nat
  v : Nat
  deriving DecidableEq, Repr

/-- What a request is answered with in place of a result (R186). -/
inductive RequestError where
  | dimension                              -- R187
  | outsideDomain                          -- R183: an entry of a public key outside `[0, Q)`
  | noHostWord                             -- a number no host word can carry (assumption 24)
  | textOutsideCodec                       -- R181
  | bitsNotMultipleOf8                     -- R182
  | block (code : ErrCode) (info : Word)   -- R186, R191
  deriving DecidableEq, Repr

/-- A request at the boundary (R183 to R185). -/
inductive Request where
  | generateKeys
  | encrypt (pk : PublicKey) (message : List Nat)
  | decrypt (key : List Bool) (cts : List Ciphertext)
  deriving DecidableEq, Repr

/-- The one response to a request (R186). -/
inductive Response where
  | keys (pk : PublicKey) (key : List Bool)
  | ciphertexts (cts : List Ciphertext)
  | text (t : List Nat)
  | error (e : RequestError)
  deriving DecidableEq, Repr

/-- Host software: answer the request, or run some lines and go on by the words they received. Not part of any
state. -/
inductive HostProgram where
  | answer (r : Response)
  | run (ls : List HostLine) (next : List Word → HostProgram)

/-! ### Checks (R183, R187) -/

/-- `A` is `N` by `N` and `b` has `N` elements. -/
def publicKeyFits (n : Nat) (pk : PublicKey) : Bool :=
  pk.a.length == n && pk.b.length == n && pk.a.all fun row => row.length == n

/-- Every entry of a public key is in `[0, Q)` (R183). -/
def publicKeyInDomain (q : Nat) (pk : PublicKey) : Bool :=
  (pk.a.all fun row => row.all fun x => x < q) && pk.b.all fun x => x < q

/-- The secret key and every `u` have `N` elements (R184, R187). -/
def ciphertextsFit (n : Nat) (key : List Bool) (cts : List Ciphertext) : Bool :=
  key.length == n && cts.all fun ct => ct.u.length == n

/-! ### Results, from the words received -/

/-- The `i`-th run of `m` words received (R183: `N` words of `u`, then `v`). -/
def receivedChunk (m : Nat) (ws : List Word) (i : Nat) : List Nat := ((ws.drop (i * m)).take m).map BitVec.toNat

/-- The ciphertexts of an `encrypt` run, one per bit (R183). -/
def ciphertextsReceived (n count : Nat) (ws : List Word) : List Ciphertext :=
  (List.range count).map fun i =>
    let chunk := receivedChunk (n + 1) ws i
    { u := chunk.take n, v := chunk.getD n 0 }

/-- The text of a `decrypt` run, or the codec's malformed input (R182, R184). -/
def textReceived (ws : List Word) : Response :=
  match decodeBitsToText (ws.map fun w => w == 1#32) with
  | some t => .text t
  | none => .error .bitsNotMultipleOf8

/-- The keys of a `generateKeys` run: `MA` row-major, then `VB`, then `VS` (R185, R90). -/
def keysReceived (n : Nat) (ws : List Word) : Response :=
  let numbers := ws.map BitVec.toNat
  .keys
    { a := (List.range n).map fun i => (numbers.drop (i * n)).take n
      b := (numbers.drop (n * n)).take n }
    (((numbers.drop (n * n + n)).take n).map fun x => x == 1)

/-- The code a read of `ERR` shows; codes 6 to 15 never occur (R25). -/
def ErrCode.ofCode : Nat → ErrCode
  | 1 => .errNotBit
  | 2 => .errRange
  | 3 => .errAddr
  | 4 => .errOpcode
  | 5 => .errBusy
  | _ => .errNone

/-! ### The host's programs -/

/-- A recorded error: read `ERR` and `ERRINFO`, clear them, and answer with them in place of a result (R186). -/
def reportError : HostProgram :=
  .run [readLine .err, readLine .errinfo, writeLine .err 0#32] fun ws =>
    .answer (.error (.block (ErrCode.ofCode (ws.getD 0 0#32).toNat) (ws.getD 1 0#32)))

/-- The lines of a request and then a read of `STATUS`: the result of the words received where `ERRF` is 0, and the
recorded error in its place where it is 1 (R186). -/
def checkedRun (ls : List HostLine) (result : List Word → Response) : HostProgram :=
  .run (ls ++ [readLine .status]) fun ws =>
    if (ws.getLastD 0#32).getLsbD 1 then reportError else .answer (result ws.dropLast)

/-- What the host reads before it loads anything: `N` for the dimension check, `Q` for the domain (R183, R187). -/
def withLimits (next : Nat → Nat → HostProgram) : HostProgram :=
  .run [readLine .cfgN, readLine .cfgQ] fun ws => next (ws.getD 0 0#32).toNat (ws.getD 1 0#32).toNat

/-- The host words of a ciphertext, if each of its numbers has one (assumption 24). -/
def ciphertextWords? (ct : Ciphertext) : Option (List Word × Word) :=
  match ct.u.mapM wordOfNat?, wordOfNat? ct.v with
  | some u, some v => some (u, v)
  | _, _ => none

/-- `generateKeys` (R185). -/
def generateKeysProgram : HostProgram :=
  withLimits fun n _ => checkedRun (PseudoLine.genKeys.expand n) (keysReceived n)

/-- `encrypt(publicKey, message)` (R183): the entries checked are below `Q`, so each has its word. -/
def encryptProgram (pk : PublicKey) (message : List Nat) : HostProgram :=
  withLimits fun n q =>
    if !publicKeyFits n pk then .answer (.error .dimension)
    else if !publicKeyInDomain q pk then .answer (.error .outsideDomain)
    else match encodeTextToBits message with
      | none => .answer (.error .textOutsideCodec)
      | some ms =>
        checkedRun
          (loadMatrix (pk.a.map fun row => row.map (BitVec.ofNat 32)) ++ loadVector .vb (pk.b.map (BitVec.ofNat 32))
            ++ ms.flatMap fun m => (PseudoLine.encBit m).expand n)
          fun ws => .ciphertexts (ciphertextsReceived n ms.length ws)

/-- `decrypt(secretKey, ciphertexts)` (R184). -/
def decryptProgram (key : List Bool) (cts : List Ciphertext) : HostProgram :=
  withLimits fun n _ =>
    if !ciphertextsFit n key cts then .answer (.error .dimension)
    else match cts.mapM ciphertextWords? with
      | none => .answer (.error .noHostWord)
      | some words =>
        checkedRun
          (loadVector .vs (key.map bitWord) ++ words.flatMap fun c => (PseudoLine.decBit c.1 c.2).expand n)
          textReceived

/-- The host's program for a request. -/
def Request.program : Request → HostProgram
  | .generateKeys => generateKeysProgram
  | .encrypt pk message => encryptProgram pk message
  | .decrypt key cts => decryptProgram key cts

/-! ### Serving a request -/

/-- Steps of the machine until the run is over (R230), at most `fuel` of them; none where it is not over by then, or
a step has no meaning. -/
def runOut : Nat → State → Option State
  | 0, s => if s.RunOver then some s else none
  | fuel + 1, s =>
    if s.RunOver then some s
    else match step s with
      | .next t => runOut fuel t
      | .fault _ | .refused _ => none

/-- Run lines from a state, the words received counted anew. -/
def runLines (fuel : Nat) (s : State) (ls : List HostLine) : Option State :=
  runOut fuel { s with env := { s.env with script := ls, received := [] } }

/-- The response of a host program run on a machine, and the state it leaves: one request, one response (R186). -/
def serve (fuel : Nat) : HostProgram → State → Option (Response × State)
  | .answer r, s => some (r, s)
  | .run ls next, s =>
    match runLines fuel s ls with
    | some t => serve fuel (next t.env.received) t
    | none => none

end Sys2Proof.Machine
end

