-- ==== Sys2Proof/Certificates/Slice0/Obligations.lean ====
section
/-! DEFINITION. The statements about this model, for the provers. Sums are written with the library's own
`Finset.sum`, and a reduced value by what R120 says of it, so that a statement does not repeat the model's text. -/

open Sys2Proof Sys2Proof.Machine

/-! ## Encoding -/

/-- Decoding the word of a well-formed command gives the command back, every operand at every value (R87). -/
def Obligations.DecodeOfEncodeIsTheCommand : Prop :=
  ∀ (n : Nat) (i : Instr), i.wf n = true → decode n (encode i) = some i

/-- A word that decodes is the word of the command it decodes to, no other word decodes to that command, and the
command is well-formed: the encoding is injective on commands and no decoded bit is dropped (R84, R87). -/
def Obligations.EncodeOfDecodeIsTheWord : Prop :=
  ∀ (n : Nat) (cw : Word) (i : Instr), decode n cw = some i →
    encode i = cw ∧ i.wf n = true ∧ ∀ cw', decode n cw' = some i → cw' = cw

/-- Every word is either one legal command or illegal: `Legal` of R84 holds exactly of the words that decode (R86). -/
def Obligations.LegalExactlyWhenDecoded : Prop :=
  ∀ (n : Nat) (cw : Word), legal n cw = true ↔ ∃ i, decode n cw = some i

/-- Words written out from the spec's encoding decode to the commands they stand for (vectors V30-1 to V30-16, and
under them), each source and each destination of MATVEC among them. -/
def Obligations.SampleWordsDecode : Prop :=
  decode 4 0x00000001#32 = some .modred
  ∧ decode 4 0x00000102#32 = some (.dot .vb .vu 0#8)
  ∧ decode 4 0x02000242#32 = some (.dot .mrow .vs 2#8)
  ∧ decode 4 0x03000352#32 = some (.dot .mcol .vr 3#8)
  ∧ decode 4 0x00000003#32 = some (.matvec .vb .vb)
  ∧ decode 4 0x00000103#32 = some (.matvec .vb .vu)
  ∧ decode 4 0x00000203#32 = some (.matvec .vb .vs)
  ∧ decode 4 0x00011303#32 = some (.matvecT .vu .vr)
  ∧ decode 4 0x00000004#32 = some .keygen
  ∧ decode 4 0x00000005#32 = some .enc
  ∧ decode 4 0x00000006#32 = some .dec
  ∧ decode 4 0x04000242#32 = none

/-- The assembler line of every well-formed command assembles to that command (R88). -/
def Obligations.DisassembledLineAssembles : Prop :=
  ∀ (n : Nat) (i : Instr), i.wf n = true → assemble (disassemble i) = some i

/-! ## Modular arithmetic -/

/-- `modq(x)` is the unique `m` with `0 <= m < Q` and `Q` dividing `x - m` (R120). -/
def Obligations.ModqIsTheTrueModulo : Prop :=
  ∀ (q m : Nat) (x : Int), 2 ≤ q → (modq q x = m ↔ m < q ∧ (q : Int) ∣ x - m)

/-- The three stages stay in their ranges and the last one is `modq(x)` (R121). -/
def Obligations.PipelineStagesGiveModq : Prop :=
  ∀ (q : Nat) (x : Int), 2 ≤ q →
    (-(q : Int) < rem q x ∧ rem q x < q)
    ∧ (0 < rem q x + q ∧ rem q x + q < 2 * q)
    ∧ modqStages q x = modq q x

/-- Reducing each term before summing gives the stored value of the single final reduction (R123). -/
def Obligations.ReducingPerTermIsNotObservable : Prop :=
  ∀ (n q : Nat) (f : Nat → Int), 2 ≤ q →
    modq q (sumBelow n fun k => (modq q (f k) : Int)) = modq q (sumBelow n f)

/-- Under the limits of a configuration no partial sum of products of elements, with the error term, `HALF` or the
reduction's `+Q` added, leaves the 32-bit signed range (R8). -/
def Obligations.SumsStayInThirtyTwoBits : Prop :=
  ∀ (c : Config) (a b : Nat → Nat) (m : Nat) (extra : Int),
    m ≤ c.n → (∀ k < c.n, a k < c.q) → (∀ k < c.n, b k < c.q) → -1 ≤ extra → extra ≤ c.q →
    -(2 ^ 31 : Int) < ((Finset.range m).sum fun k => (a k : Int) * (b k : Int)) + extra
    ∧ ((Finset.range m).sum fun k => (a k : Int) * (b k : Int)) + extra < 2 ^ 31

/-! ## The commands: each completes, with this result, and nothing else changes -/

/-- MODRED always completes: `RES` is the true modulo of the signed `XIN` (R120, R122). -/
def Obligations.ModredReducesXin : Prop :=
  ∀ s : State, ∃ r : Nat,
    exec .modred s = .next { s with res := r, phase := .idle, cmdl := none }
    ∧ r < s.cfg.q ∧ (s.cfg.q : Int) ∣ s.xin.toInt - r

/-- DOT completes on every well-formed operand pair: `RES` is the inner product of the two vectors as stood in
storage, reduced once, and the order of the operands does not matter (R130, R131). -/
def Obligations.DotWritesReducedInnerProduct : Prop :=
  ∀ (s : State) (sa sb : VecSel) (idx : BitVec 8), (Instr.dot sa sb idx).wf s.cfg.n = true → ∃ r : Nat,
    exec (.dot sa sb idx) s = .next { s with res := r, phase := .idle, cmdl := none }
    ∧ r < s.cfg.q
    ∧ (s.cfg.q : Int) ∣
        ((Finset.range s.cfg.n).sum fun k => (vec s sa idx k : Int) * (vec s sb idx k : Int)) - r
    ∧ exec (.dot sb sa idx) s = exec (.dot sa sb idx) s

/-- Each selector names its vector, as an operand of DOT and as the vector of MATVEC; both matrix selectors read by the
one `IDX` (R83, R85, R141). -/
def Obligations.SelectorsNameTheirVectors : Prop :=
  ∀ (s : State) (idx : BitVec 8) (k : Nat),
    vec s .vb idx k = s.vb.getD k 0 ∧ vec s .vu idx k = s.vu.getD k 0
    ∧ vec s .vs idx k = (if s.vs.getD k false then 1 else 0)
    ∧ vec s .vr idx k = (if s.vr.getD k false then 1 else 0)
    ∧ vec s .mrow idx k = (s.ma.getD idx.toNat []).getD k 0
    ∧ vec s .mcol idx k = (s.ma.getD k []).getD idx.toNat 0
    ∧ srcVec s .vb k = s.vb.getD k 0 ∧ srcVec s .vu k = s.vu.getD k 0
    ∧ srcVec s .vs k = (if s.vs.getD k false then 1 else 0)
    ∧ srcVec s .vr k = (if s.vr.getD k false then 1 else 0)

/-- DOT stops, by name, on operands no legal word encodes; the model's choice, assumption 8 (R84, R86). -/
def Obligations.IllFormedDotIsRefused : Prop :=
  ∀ (s : State) (sa sb : VecSel) (idx : BitVec 8), (Instr.dot sa sb idx).wf s.cfg.n = false →
    exec (.dot sa sb idx) s = .refused .illegalOperands

/-- MATVEC always completes: every element of the destination is its row's product with the operand as it was,
reduced once; the destination may be the operand (R140, R141). -/
def Obligations.MatvecWritesRowProducts : Prop :=
  ∀ (s : State) (dst : DstSel) (sb : SrcSel), ∃ y : List Nat,
    exec (.matvec dst sb) s = .next { s with
      vb := (if dst = .vb then y else s.vb), vu := (if dst = .vu then y else s.vu),
      phase := .idle, cmdl := none }
    ∧ y.length = s.cfg.n
    ∧ ∀ i < s.cfg.n, y.getD i 0 < s.cfg.q
      ∧ (s.cfg.q : Int) ∣
          ((Finset.range s.cfg.n).sum fun k => (maAt s i k : Int) * (srcVec s sb k : Int)) - (y.getD i 0 : Int)

/-- MATVEC.T always completes: the same with the columns of `MA` (R140, R141). -/
def Obligations.MatvecTWritesColumnProducts : Prop :=
  ∀ (s : State) (dst : DstSel) (sb : SrcSel), ∃ y : List Nat,
    exec (.matvecT dst sb) s = .next { s with
      vb := (if dst = .vb then y else s.vb), vu := (if dst = .vu then y else s.vu),
      phase := .idle, cmdl := none }
    ∧ y.length = s.cfg.n
    ∧ ∀ j < s.cfg.n, y.getD j 0 < s.cfg.q
      ∧ (s.cfg.q : Int) ∣
          ((Finset.range s.cfg.n).sum fun i => (maAt s i j : Int) * (srcVec s sb i : Int)) - (y.getD j 0 : Int)

/-- KEYGEN completes when the random source keeps its contract: `VS` and `MA` are its draws in the order of R113,
`VB` the row sums with the one error draw added in every row, and `N + N*N + 1` draws are consumed (R150, R151). What
stands in `drawCount` and `answers` afterwards is the model's form of the draws (assumptions 5 and 13). -/
def Obligations.KeygenStoresDrawnKey : Prop :=
  ∀ s : State, s.SourceKeepsContract .keygen → ∃ b : List Nat,
    exec .keygen s = .next { s with
      vs := (List.range s.cfg.n).map (fun k => drawBit s k),
      ma := (List.range s.cfg.n).map (fun i => (List.range s.cfg.n).map fun j => drawModq s (s.cfg.n + s.cfg.n * i + j)),
      vb := b, phase := .idle, cmdl := none,
      env := { s.env with
        answers := [],
        drawCount := s.env.drawCount + (s.cfg.n + s.cfg.n * s.cfg.n + 1) } }
    ∧ b.length = s.cfg.n
    ∧ ∀ i < s.cfg.n, b.getD i 0 < s.cfg.q
      ∧ (s.cfg.q : Int) ∣
          ((Finset.range s.cfg.n).sum fun j =>
              (drawModq s (s.cfg.n + s.cfg.n * i + j) : Int) * (if drawBit s j then 1 else 0))
            + err3Val (drawErr s (s.cfg.n + s.cfg.n * s.cfg.n)) - (b.getD i 0 : Int)

/-- What a host finds after KEYGEN: bits, elements of `[0, Q)`, and one error scalar of `{-1, 0, 1}` that explains
every element of `VB` (R153). -/
def Obligations.KeygenResultsAreAKeyPair : Prop :=
  ∀ s t : State, exec .keygen s = .next t →
    t.vs.length = t.cfg.n ∧ t.ma.length = t.cfg.n ∧ t.vb.length = t.cfg.n
    ∧ (∀ i < t.cfg.n, ∀ j < t.cfg.n, maAt t i j < t.cfg.q) ∧ (∀ i < t.cfg.n, vbAt t i < t.cfg.q)
    ∧ ∃ e : Int, (e = -1 ∨ e = 0 ∨ e = 1) ∧ ∀ i < t.cfg.n,
        (t.cfg.q : Int) ∣
          ((Finset.range t.cfg.n).sum fun j => (maAt t i j : Int) * (vsAt t j : Int)) + e - (vbAt t i : Int)

/-- KEYGEN reads no old key: whatever `VS`, `MA` and `VB` held, the outcome is the same (R40, R150). -/
def Obligations.KeygenReadsNoOldKey : Prop :=
  ∀ (s : State) (vs : List Bool) (ma : List (List Nat)) (vb : List Nat),
    exec .keygen { s with vs := vs, ma := ma, vb := vb } = exec .keygen s

/-- Equal draws give equal keys: two blocks of one configuration, whatever else they hold, whose random sources give
the same answers, leave the same `VS`, `MA` and `VB` (R114, R153). -/
def Obligations.EqualDrawsGiveEqualKeys : Prop :=
  ∀ s s' t t' : State, s'.cfg = s.cfg → s'.env.answers = s.env.answers → s'.env.drawCount = s.env.drawCount →
    exec .keygen s = .next t → exec .keygen s' = .next t' → t'.vs = t.vs ∧ t'.ma = t.ma ∧ t'.vb = t.vb

/-- ENC completes when the random source keeps its contract: `VR` is `N` fresh draws, `VU` the column sums, `SV` the
sum of `VB` over `r` plus `HALF*PBIT`, each reduced once, and `N` draws are consumed (R160, R161). What stands in
`drawCount` and `answers` afterwards is the model's form of the draws (assumptions 5 and 13). -/
def Obligations.EncStoresCiphertext : Prop :=
  ∀ s : State, s.SourceKeepsContract .enc → ∃ (u : List Nat) (v : Nat),
    exec .enc s = .next { s with
      vr := (List.range s.cfg.n).map (fun k => drawBit s k), vu := u, sv := v, phase := .idle, cmdl := none,
      env := { s.env with
        answers := [], drawCount := s.env.drawCount + s.cfg.n } }
    ∧ u.length = s.cfg.n ∧ v < s.cfg.q
    ∧ (∀ j < s.cfg.n, u.getD j 0 < s.cfg.q
      ∧ (s.cfg.q : Int) ∣
          ((Finset.range s.cfg.n).sum fun i => (maAt s i j : Int) * (if drawBit s i then 1 else 0))
            - (u.getD j 0 : Int))
    ∧ (s.cfg.q : Int) ∣
        ((Finset.range s.cfg.n).sum fun i => (vbAt s i : Int) * (if drawBit s i then 1 else 0))
          + (if s.pbit then ((s.cfg.q / 2 : Nat) : Int) else 0) - (v : Int)

/-- The relations that hold after ENC between `VR`, `VU`, `SV` and the unchanged key and bit (R163). -/
def Obligations.EncResultsAreACiphertext : Prop :=
  ∀ s t : State, exec .enc s = .next t →
    t.ma = s.ma ∧ t.vb = s.vb ∧ t.pbit = s.pbit
    ∧ t.vr.length = t.cfg.n ∧ t.vu.length = t.cfg.n ∧ t.sv < t.cfg.q
    ∧ (∀ j < t.cfg.n, vuAt t j < t.cfg.q
      ∧ (t.cfg.q : Int) ∣
          ((Finset.range t.cfg.n).sum fun i => (maAt t i j : Int) * (vrAt t i : Int)) - (vuAt t j : Int))
    ∧ (t.cfg.q : Int) ∣
        ((Finset.range t.cfg.n).sum fun i => (vbAt t i : Int) * (vrAt t i : Int))
          + ((t.cfg.q / 2 : Nat) : Int) * (if t.pbit then 1 else 0) - (t.sv : Int)

/-- ENC reads no old `VR`, `VU` or `SV` (R40, R160, R161). -/
def Obligations.EncReadsNoOldCiphertext : Prop :=
  ∀ (s : State) (vr : List Bool) (vu : List Nat) (sv : Nat),
    exec .enc { s with vr := vr, vu := vu, sv := sv } = exec .enc s

/-- DEC always completes: `inner` is the reduced inner product of `VU` and `VS`, `diff` the plain difference, and
`RES` is 0 exactly when `4*|diff| < Q`, else 1 (R170, R172). -/
def Obligations.DecDecidesByExactStrictThreshold : Prop :=
  ∀ s : State, ∃ inner : Nat, inner < s.cfg.q
    ∧ (s.cfg.q : Int) ∣ ((Finset.range s.cfg.n).sum fun i => (vuAt s i : Int) * (vsAt s i : Int)) - inner
    ∧ exec .dec s = .next { s with
        res := (if 4 * |(s.sv : Int) - inner| < s.cfg.q then 0 else 1), phase := .idle, cmdl := none }

/-- The threshold is exact and strict, at every modulus, and no prime above 2 meets it; in numbers, at the reference
modulus and at a modulus divisible by 4 (R171). -/
def Obligations.DecisionThresholdValues : Prop :=
  ∀ diff : Int,
    (∀ q : Nat, (decideBit q diff = 0 ↔ 4 * |diff| < q) ∧ (decideBit q diff = 1 ↔ (q : Int) ≤ 4 * |diff|))
    ∧ (∀ q : Nat, q.Prime → 2 < q → 4 * |diff| ≠ q)
    ∧ (decideBit 2053 diff = 0 ↔ |diff| ≤ 513) ∧ (decideBit 2053 diff = 1 ↔ 514 ≤ |diff|)
    ∧ (decideBit 2052 diff = 0 ↔ |diff| ≤ 512) ∧ (decideBit 2052 diff = 1 ↔ 513 ≤ |diff|)

/-- With the error draw 0, MATVEC VB, VS computes the `VB` KEYGEN has just computed (R141). -/
def Obligations.MatvecRecomputesErrorFreeKey : Prop :=
  ∀ s t : State, errorDrawn s = 0 → exec .keygen s = .next t → exec (.matvec .vb .vs) t = .next t

/-! ## The decryption theorem (R174, R175) -/

/-- The decryption identity: `SV = modq(inner + e*w + HALF*m)`, `diff` is that less `inner`, is congruent to
`e*w + HALF*m` and lies strictly between `-Q` and `Q` (R174). -/
def Obligations.DecryptionIdentity : Prop :=
  ∀ s0 s1 s2 s3 s4 s5 : State, RoundTrip s0 s1 s2 s3 s4 s5 →
    let e := errorDrawn s0
    let w : Int := onesIn s3.vr
    let m : Int := if s2.pbit then 1 else 0
    let halfQ : Int := ((s0.cfg.q / 2 : Nat) : Int)
    (s0.cfg.q : Int) ∣
        ((Finset.range s0.cfg.n).sum fun i => (vbAt s2 i : Int) * (vrAt s3 i : Int)) - ((innerOf s4 : Int) + e * w)
    ∧ (s3.sv : Int) = (modq s0.cfg.q ((innerOf s4 : Int) + e * w + halfQ * m) : Int)
    ∧ diffOf s4 = (modq s0.cfg.q ((innerOf s4 : Int) + e * w + halfQ * m) : Int) - (innerOf s4 : Int)
    ∧ w ≤ s0.cfg.n
    ∧ (s0.cfg.q : Int) ∣ diffOf s4 - (e * w + halfQ * m)
    ∧ -(s0.cfg.q : Int) < diffOf s4 ∧ diffOf s4 < s0.cfg.q

/-- When DEC returns the encrypted bit. A 0 comes back as 0 exactly when adding the noise to `inner` does not wrap
(for `4*N < Q`); a 1 always comes back as 1 (for `4*(HALF - N) >= Q`) (R175). -/
def Obligations.DecryptedBitIsRightExactlyWhen : Prop :=
  ∀ s0 s1 s2 s3 s4 s5 : State, RoundTrip s0 s1 s2 s3 s4 s5 →
    let e := errorDrawn s0
    let w : Int := onesIn s3.vr
    let inner : Int := innerOf s4
    let q : Int := s0.cfg.q
    let halfQ : Int := ((s0.cfg.q / 2 : Nat) : Int)
    (s2.pbit = false → 4 * (s0.cfg.n : Int) < q →
      (0 ≤ inner + e * w ∧ inner + e * w < q →
        diffOf s4 = e * w ∧ 4 * |diffOf s4| ≤ 4 * s0.cfg.n ∧ s5.res = 0)
      ∧ (inner + e * w < 0 ∨ q ≤ inner + e * w →
        e ≠ 0 ∧ 1 ≤ w ∧ |diffOf s4| = q - w ∧ q ≤ 4 * (q - w) ∧ s5.res = 1)
      ∧ (s5.res = 0 ↔ e = 0 ∨ (e = 1 ∧ inner < q - w) ∨ (e = -1 ∧ w ≤ inner)))
    ∧ (s2.pbit = true → q ≤ 4 * (halfQ - s0.cfg.n) →
      (diffOf s4 = e * w + halfQ ∨ diffOf s4 = e * w + halfQ - q)
      ∧ halfQ - s0.cfg.n ≤ |diffOf s4| ∧ s5.res = 1)

/-! ## All commands together -/

/-- Completion is total and silent: a well-formed command completes whenever the random source keeps its contract,
records nothing in `ERR` and leaves the block idle with nothing latched (R64, R203). -/
def Obligations.EveryCommandCompletesWithoutError : Prop :=
  ∀ (i : Instr) (s : State), i.wf s.cfg.n = true → s.SourceKeepsContract i → ∃ t : State,
    exec i s = .next t ∧ t.err = s.err ∧ t.errinfo = s.errinfo ∧ t.phase = .idle ∧ t.cmdl = none ∧ t.cfg = s.cfg

/-- The frame of every command: an address outside the command's row of R226's table, `STATUS` apart, holds after it
the word it held before. -/
def Obligations.CommandsOverwriteOnlyTheirTable : Prop :=
  ∀ (i : Instr) (s t : State), exec i s = .next t → ∀ a : HostAddr,
    locate a ≠ .status → overwrites i (locate a) = false → definedWord t a = definedWord s a

/-- The draws of each command, counted (R113). -/
def Obligations.DrawsPerCommand : Prop :=
  ∀ n : Nat, (drawKinds n .keygen).length = n + n * n + 1 ∧ (drawKinds n .enc).length = n
    ∧ drawKinds n .modred = [] ∧ drawKinds n .dec = []
    ∧ (∀ sa sb idx, drawKinds n (.dot sa sb idx) = [])
    ∧ ∀ dst sb, drawKinds n (.matvec dst sb) = [] ∧ drawKinds n (.matvecT dst sb) = []

/-- The values of the port's answers (R115): the bit itself, the unsigned integer, and -1, 0, 1 for the error codes. -/
def Obligations.PortAnswersHaveTheirValues : Prop :=
  ∀ (s : State) (k : Nat),
    (∀ b, s.env.answers[k]? = some (.bit b) → (if drawBit s k then 1 else 0) = b.toNat)
    ∧ (∀ w, s.env.answers[k]? = some (.modq w) → drawModq s k = w.toNat)
    ∧ (s.env.answers[k]? = some (.err 0b11#2) → err3Val (drawErr s k) = -1)
    ∧ (s.env.answers[k]? = some (.err 0b00#2) → err3Val (drawErr s k) = 0)
    ∧ (s.env.answers[k]? = some (.err 0b01#2) → err3Val (drawErr s k) = 1)

/-- Under the contract every matrix draw of KEYGEN is an element of `Zq`, answered or free (R111). -/
def Obligations.ModqDrawsAreInDomain : Prop :=
  ∀ s : State, s.SourceKeepsContract .keygen → ∀ k < s.cfg.n * s.cfg.n, drawModq s (s.cfg.n + k) < s.cfg.q

/-- A random source that breaks its contract stops the command, by name: R211 makes a draw outside its domain a
refusal (R116). That an answer of the wrong kind is such a breach, the only one ENC can meet, is the model's own reading
(assumption 7). -/
def Obligations.BrokenContractIsRefused : Prop :=
  ∀ s : State,
    (¬ s.SourceKeepsContract .keygen → exec .keygen s = .refused .drawOutOfContract)
    ∧ (¬ s.SourceKeepsContract .enc → exec .enc s = .refused .drawOutOfContract)

/-! ## The host's accesses -/

/-- The address map (R51): every register, every window location, and the two unmapped ranges. That a name whose index
no window has stands for an unmapped address, where a write is the `ERR_ADDR` of R187, is the model's choice (assumption
23). -/
def Obligations.AddressMap : Prop :=
  (locate 0x00000#17 = .cfgN ∧ locate 0x00001#17 = .cfgQ ∧ locate 0x00002#17 = .status ∧ locate 0x00003#17 = .err
    ∧ locate 0x00004#17 = .errinfo ∧ locate 0x00005#17 = .cmd ∧ locate 0x00006#17 = .xin ∧ locate 0x00007#17 = .res
    ∧ locate 0x00008#17 = .pbit ∧ locate 0x00009#17 = .sv)
  ∧ (∀ a : HostAddr, 0x0000A ≤ a.toNat ∧ a.toNat ≤ 0x000FF ∨ 0x00500 ≤ a.toNat ∧ a.toNat ≤ 0x0FFFF →
      locate a = .unmapped)
  ∧ (∀ k < 256, locate (BitVec.ofNat 17 (0x00100 + k)) = .vb k ∧ locate (BitVec.ofNat 17 (0x00200 + k)) = .vu k
    ∧ locate (BitVec.ofNat 17 (0x00300 + k)) = .vs k ∧ locate (BitVec.ofNat 17 (0x00400 + k)) = .vr k)
  ∧ (∀ i < 256, ∀ j < 256, locate (BitVec.ofNat 17 (0x10000 + 256 * i + j)) = .ma i j)
  ∧ (∀ v k, locate (elementLoc v k).addr = if k < 256 then elementLoc v k else .unmapped)
  ∧ ∀ i j, locate (Loc.ma i j).addr = if i < 256 ∧ j < 256 then .ma i j else .unmapped

/-- `STATUS` has the two flags and nothing else (R24). -/
def Obligations.StatusShowsPhaseAndError : Prop :=
  ∀ (s : State) (a : HostAddr), locate a = .status →
    ((hostRead s a).getLsbD 0 = true ↔ s.phase = .busy)
    ∧ ((hostRead s a).getLsbD 1 = true ↔ s.err ≠ .errNone)
    ∧ ∀ j, 2 ≤ j → (hostRead s a).getLsbD j = false

/-- `HostRead`, in the idle phase at every address, in the busy phase at the six that read normally; at any other
address while busy, a free word (R52, R59; assumption 6). `ERR` reads as the number of the recorded code (R25, R191). -/
def Obligations.HostReadReturnsTheLocation : Prop :=
  ∀ (s : State) (a : HostAddr),
    (locate a = .cfgN → hostRead s a = BitVec.ofNat 32 s.cfg.n)
    ∧ (locate a = .cfgQ → hostRead s a = BitVec.ofNat 32 s.cfg.q)
    ∧ (locate a = .status → hostRead s a =
        BitVec.ofNat 32 ((if s.phase = .busy then 1 else 0) + 2 * (if s.err ≠ .errNone then 1 else 0)))
    ∧ (locate a = .err →
      (s.err = .errNone → hostRead s a = 0#32) ∧ (s.err = .errNotBit → hostRead s a = 1#32)
      ∧ (s.err = .errRange → hostRead s a = 2#32) ∧ (s.err = .errAddr → hostRead s a = 3#32)
      ∧ (s.err = .errOpcode → hostRead s a = 4#32) ∧ (s.err = .errBusy → hostRead s a = 5#32))
    ∧ (locate a = .errinfo → hostRead s a = s.errinfo)
    ∧ (locate a = .cmd → hostRead s a = 0#32)
    ∧ (s.phase = .busy → readsNormallyWhileBusy (locate a) = false →
        hostRead s a = Config.freeReadWord s.env.freeReads)
    ∧ (s.phase = .idle →
      (locate a = .xin → hostRead s a = s.xin)
      ∧ (locate a = .res → hostRead s a = BitVec.ofNat 32 s.res)
      ∧ (locate a = .pbit → hostRead s a = if s.pbit then 1#32 else 0#32)
      ∧ (locate a = .sv → hostRead s a = BitVec.ofNat 32 s.sv)
      ∧ (∀ k, locate a = .vb k → hostRead s a = if k < s.cfg.n then BitVec.ofNat 32 (s.vb.getD k 0) else 0#32)
      ∧ (∀ k, locate a = .vu k → hostRead s a = if k < s.cfg.n then BitVec.ofNat 32 (s.vu.getD k 0) else 0#32)
      ∧ (∀ k, locate a = .vs k → hostRead s a = if k < s.cfg.n ∧ s.vs.getD k false = true then 1#32 else 0#32)
      ∧ (∀ k, locate a = .vr k → hostRead s a = if k < s.cfg.n ∧ s.vr.getD k false = true then 1#32 else 0#32)
      ∧ (∀ i j, locate a = .ma i j → hostRead s a =
          if i < s.cfg.n ∧ j < s.cfg.n then BitVec.ofNat 32 ((s.ma.getD i []).getD j 0) else 0#32)
      ∧ (locate a = .unmapped → hostRead s a = 0#32))

/-- An accepted operand write stores exactly its word: that address then reads the word, every other address, the
status registers among them, reads what it read (R53 step 4, R54, R58). -/
def Obligations.AcceptedWriteReadsBack : Prop :=
  ∀ (s : State) (a : HostAddr) (v : Word), s.Inv → s.phase = .idle →
    isWritableOperand s.cfg.n (locate a) = true → accepts s.cfg.q (locate a) v →
    definedWord (hostWrite s a v) a = v
    ∧ (∀ a', a' ≠ a → definedWord (hostWrite s a v) a' = definedWord s a')
    ∧ (hostWrite s a v).phase = .idle ∧ (hostWrite s a v).cmdl = s.cmdl

/-- A legal word written to `CMD` in the idle phase is latched and starts the command; nothing else changes
(R23, R27, R53 step 3). -/
def Obligations.LegalCommandIsLatched : Prop :=
  ∀ (s : State) (a : HostAddr) (v : Word), s.phase = .idle → locate a = .cmd → legal s.cfg.n v = true →
    hostWrite s a v = { s with cmdl := some v, phase := .busy }

/-- `ERR_NOTBIT`: a word above 1 written to a binary location is rejected and recorded with its address (R192). -/
def Obligations.NonBitWriteIsRejected : Prop :=
  ∀ (s : State) (a : HostAddr) (v : Word), s.phase = .idle →
    (locate a = .pbit ∨ ∃ k < s.cfg.n, locate a = .vs k ∨ locate a = .vr k) → 1 < v.toNat →
    hostWrite s a v = raiseError s .errNotBit (a.setWidth 32)

/-- `ERR_RANGE`: a word `>= Q` written to a mod-Q location is rejected, not reduced, and recorded with its address
(R193). -/
def Obligations.OutOfRangeWriteIsRejected : Prop :=
  ∀ (s : State) (a : HostAddr) (v : Word), s.phase = .idle →
    (locate a = .sv ∨ (∃ k < s.cfg.n, locate a = .vb k ∨ locate a = .vu k)
      ∨ ∃ i < s.cfg.n, ∃ j < s.cfg.n, locate a = .ma i j) → s.cfg.q ≤ v.toNat →
    hostWrite s a v = raiseError s .errRange (a.setWidth 32)

/-- `ERR_ADDR`: a write to a read-only register, an index `>= N` or an unmapped address is rejected whatever the
value, and recorded with its address; a read there gives the register's value or 0 (R194). -/
def Obligations.WriteToNoLocationIsRejected : Prop :=
  ∀ (s : State) (a : HostAddr) (v : Word), s.phase = .idle → locate a ≠ .err → locate a ≠ .cmd →
    isWritableOperand s.cfg.n (locate a) = false →
    hostWrite s a v = raiseError s .errAddr (a.setWidth 32)
    ∧ hostRead s a = (if locate a = .cfgN then BitVec.ofNat 32 s.cfg.n
        else if locate a = .cfgQ then BitVec.ofNat 32 s.cfg.q
        else if locate a = .status then statusWord s
        else if locate a = .errinfo then s.errinfo
        else if locate a = .res then BitVec.ofNat 32 s.res
        else 0#32)

/-- `ERR_OPCODE`: an illegal word written to `CMD` in the idle phase starts nothing and is recorded itself (R195). -/
def Obligations.IllegalCommandIsRejected : Prop :=
  ∀ (s : State) (a : HostAddr) (v : Word), s.phase = .idle → locate a = .cmd → legal s.cfg.n v = false →
    hostWrite s a v = raiseError s .errOpcode v

/-- `ERR_BUSY`: while a command is in flight a write to any address but `ERR` is rejected, whatever it is, and
recorded with its address (R196). -/
def Obligations.WriteWhileBusyIsRejected : Prop :=
  ∀ (s : State) (a : HostAddr) (v : Word), s.phase = .busy → locate a ≠ .err →
    hostWrite s a v = raiseError s .errBusy (a.setWidth 32)

/-- Recording is sticky and first-wins, and touches `ERR` and `ERRINFO` alone (R197). -/
def Obligations.FirstErrorWins : Prop :=
  ∀ (s : State) (e : ErrCode) (info : Word),
    (s.err = .errNone → raiseError s e info = { s with err := e, errinfo := info })
    ∧ (s.err ≠ .errNone → raiseError s e info = s)

/-- Any write to `ERR`, in either phase, clears the record and changes nothing else; a write elsewhere leaves a
recorded error as it is (R199). -/
def Obligations.WriteToErrClearsIt : Prop :=
  ∀ (s : State) (a : HostAddr) (v : Word),
    (locate a = .err → hostWrite s a v = { s with err := .errNone, errinfo := 0#32 })
    ∧ (locate a ≠ .err → s.err ≠ .errNone →
      (hostWrite s a v).err = s.err ∧ (hostWrite s a v).errinfo = s.errinfo)

/-- A write that records an error has no other effect, and records only over no error: errors are precise
(R190, R197). -/
def Obligations.ErrorsArePrecise : Prop :=
  ∀ (s : State) (a : HostAddr) (v : Word), locate a ≠ .err → (hostWrite s a v).err ≠ s.err →
    s.err = .errNone
    ∧ hostWrite s a v = { s with err := (hostWrite s a v).err, errinfo := (hostWrite s a v).errinfo }

/-! ## Reset -/

/-- The reset event, in either phase: every piece of state at its value of R42, `CFG_N` and `CFG_Q` kept (R42). -/
def Obligations.ResetLeavesTheResetState : Prop :=
  ∀ s : State,
    (resetEvent s).cfg = s.cfg ∧ (resetEvent s).phase = .idle ∧ (resetEvent s).cmdl = none
    ∧ (resetEvent s).err = .errNone ∧ (resetEvent s).errinfo = 0#32 ∧ (resetEvent s).xin = 0#32
    ∧ (resetEvent s).res = 0 ∧ (resetEvent s).pbit = false ∧ (resetEvent s).sv = 0
    ∧ (resetEvent s).vb = List.replicate s.cfg.n 0 ∧ (resetEvent s).vu = List.replicate s.cfg.n 0
    ∧ (resetEvent s).vs = List.replicate s.cfg.n false ∧ (resetEvent s).vr = List.replicate s.cfg.n false
    ∧ (resetEvent s).ma = List.replicate s.cfg.n (List.replicate s.cfg.n 0)
    ∧ statusWord (resetEvent s) = 0#32

/-- The invariant holds of the reset state of every configuration (R41, R42). -/
def Obligations.ResetStateMeetsInvariant : Prop :=
  ∀ c : Config, (State.resetFor c).Inv

/-! ## The step -/

/-- Every step keeps the invariant: storage in shape and domain, control and error registers coherent, from every
state that has it, whatever the host, the turns and the random source do (R41 with R23, R26, R27). -/
def Obligations.StepKeepsInvariant : Prop :=
  ∀ s t : State, s.Inv → step s = .next t → t.Inv

/-- From every state that meets the invariant a step has a next state, the one exception being a completion whose
random source breaks its contract: nothing else stops this machine (R203, R211). -/
def Obligations.OnlyABrokenContractStopsTheMachine : Prop :=
  ∀ s : State, s.Inv → (∃ t, step s = .next t) ∨ step s = .refused .drawOutOfContract

/-- On the core's turn, with a command word latched that decodes to a command, the step is that command's effect in
the state with the turn taken (R64). -/
def Obligations.StepRunsTheLatchedCommand : Prop :=
  ∀ (s : State) (cw : Word) (i : Instr), nextAgent s = .core → s.phase = .busy → s.cmdl = some cw →
    decode s.cfg.n cw = some i → step s = exec i (takeTurn s)

/-- On the host's turn the step is the next line of its script that is an action; on a reset turn it is the reset event
(R12, R89). A DRAWS line takes no step: the step is that of the lines after it, the answers stated standing for the next
command, whose own they become when it is accepted. An RD whose word is open uses up one free value, so that two such
reads may return different words (R59). The model's choices here: an empty script does nothing (assumption 4), the free word is
numbered by a counter (6), DRAWS is heard on the way to the next line and a later one replaces it (13), WAIT polls once a turn (14), a reset
leaves the environment (15), the core's turn in the idle phase does nothing (16). -/
def Obligations.StepOfTheOtherAgents : Prop :=
  ∀ s : State,
    takeTurn s = { s with env := { s.env with turns := s.env.turns.drop 1 } }
    ∧ (nextAgent s = .reset →
      step s = .next (resetEvent (takeTurn s)) ∧ (resetEvent (takeTurn s)).env = (takeTurn s).env)
    ∧ (nextAgent s = .core → s.phase = .idle → step s = .next (takeTurn s))
    ∧ (nextAgent s = .host → s.env.script = [] → step s = .next (takeTurn s))
    ∧ (∀ a v ls, nextAgent s = .host →
        s.env.script = .wr a v :: ls ∨ (∃ i, s.env.script = .cmd i :: ls ∧ a = 0x00005#17 ∧ v = encode i) →
        ∃ t, step s = .next t ∧ { t with env := s.env } = hostWrite s a v
          ∧ t.env = (if s.phase = .idle ∧ locate a = .cmd ∧ legal s.cfg.n v = true
              then { (takeTurn s).env with script := ls, answers := s.env.announced, announced := [] }
              else { (takeTurn s).env with script := ls }))
    ∧ (∀ a ls, nextAgent s = .host → s.env.script = .rd a :: ls →
        step s = .next { s with env := { (takeTurn s).env with
          script := ls
          received := s.env.received ++ [hostRead s a]
          freeReads := s.env.freeReads
            + (if s.phase = .busy ∧ readsNormallyWhileBusy (locate a) = false then 1 else 0) } })
    ∧ (∀ ls, nextAgent s = .host → s.env.script = .wait :: ls → s.phase = .busy → step s = .next (takeTurn s))
    ∧ (∀ ls, nextAgent s = .host → s.env.script = .wait :: ls → s.phase = .idle →
        step s = .next (setScript (takeTurn s) ls))
    ∧ (∀ ls, nextAgent s = .host → s.env.script = .reset :: ls →
        step s = .next (resetEvent (setScript (takeTurn s) ls)))
    ∧ (∀ as ls, nextAgent s = .host → s.env.script = .draws as :: ls →
        step s = step { s with env := { s.env with script := ls, announced := as } })

/-- A command in flight ends: with its draws within contract the block is idle again after at most one step more than
the turns listed; and where no reset is listed or scripted the end is the command's own completion, from a state in
which the latched word and the operand storage still stand (R221, R228). The bound is the model's (assumption 3). -/
def Obligations.AcceptedCommandCompletes : Prop :=
  ∀ (s : State) (cw : Word) (i : Instr), s.phase = .busy → s.cmdl = some cw → decode s.cfg.n cw = some i →
    s.SourceKeepsContract i →
    (∃ k ≤ s.env.turns.length + 1, ∃ t : State, Sys2Proof.core.run k s = .next t ∧ t.phase = .idle)
    ∧ (Agent.reset ∉ s.env.turns → HostLine.reset ∉ s.env.script →
      ∃ k ≤ s.env.turns.length, ∃ u t : State, Sys2Proof.core.run k s = .next u
        ∧ { u with err := s.err, errinfo := s.errinfo, env := s.env } = s
        ∧ step u = exec i (takeTurn u) ∧ step u = .next t ∧ t.phase = .idle ∧ t.cmdl = none)

/-- `CFG_N` and `CFG_Q` never change, whatever the step (R6, R7, R21, R22). -/
def Obligations.ConfigurationNeverChanges : Prop :=
  ∀ s t : State, step s = .next t → t.cfg = s.cfg

/-- In the idle phase only a host write or a reset changes the block: any other step leaves all of it as it was
(R220). The host's next line is the first of its script that is an action (R89). -/
def Obligations.IdleBlockChangesOnlyByWriteOrReset : Prop :=
  ∀ s t : State, s.phase = .idle → step s = .next t → nextAgent s ≠ .reset →
    (∀ a v, s.nextHostLine ≠ some (.wr a v)) → (∀ i, s.nextHostLine ≠ some (.cmd i)) →
    s.nextHostLine ≠ some .reset → { t with env := s.env } = s

/-- While a command is in flight nothing but its completion or a reset changes what it reads: after a host turn that
is no RESET line, the latched word and all of the operand storage stand (R60), and so do the answers its draws will
meet, whatever DRAWS states meanwhile (R89; assumption 13). -/
def Obligations.OperandsOfACommandInFlightStand : Prop :=
  ∀ s t : State, s.phase = .busy → nextAgent s = .host → s.nextHostLine ≠ some .reset → step s = .next t →
    { t with err := s.err, errinfo := s.errinfo, env := s.env } = s ∧ t.env.answers = s.env.answers

/-! ## The host's text codec (outside the block) -/

/-- A character's 8 bits are those of its code, most significant first (R181). -/
def Obligations.CharacterBitsAreMostSignificantFirst : Prop :=
  ∀ c ≤ 255, (charBits c).length = 8 ∧ ∀ i < 8, (charBits c).getD i false = c.testBit (7 - i)

/-- Decoding inverts encoding on every text of the codec's domain (R182). -/
def Obligations.DecodeInvertsEncodeText : Prop :=
  ∀ text : List Nat, (∀ c ∈ text, c ≤ 255) →
    ∃ ms, encodeTextToBits text = some ms ∧ ms.length = 8 * text.length ∧ decodeBitsToText ms = some text

/-- A text with a code point above 255 is refused, and a bit sequence whose length is no multiple of 8 gives no text
(R181, R182). -/
def Obligations.MalformedTextIsRefused : Prop :=
  (∀ text : List Nat, (∃ c ∈ text, 255 < c) → encodeTextToBits text = none)
  ∧ ∀ ms : List Bool, (decodeBitsToText ms).isSome = true ↔ 8 ∣ ms.length

/-- One request, one response, in the default order of turns, in which the host acts when no command is in flight and no
reset comes in between (assumption 3): when the lines of a request have run out and left `u`, the host answers with the result
of the words received if no error is recorded, and otherwise with the recorded code and information in its place, and
the record is cleared (R186). The program that reads `STATUS`, `ERR` and `ERRINFO` and writes `ERR` is the model's form
of that host (assumption 21). With a reset listed after the lines this would not hold: the record is cleared before
`STATUS` is read. -/
def Obligations.RequestGetsOneResponse : Prop :=
  ∀ (fuel : Nat) (ls : List HostLine) (result : List Word → Response) (s u : State),
    s.env.turns = [] → runLines fuel s ls = some u →
    ∃ t, serve (fuel + 3) (checkedRun ls result) s
        = some (if u.err = .errNone then result u.env.received else .error (.block u.err u.errinfo), t)
      ∧ t.err = .errNone
      ∧ { t with err := u.err, errinfo := u.errinfo, env := u.env } = u
end

