-- ==== Sys2Proof/Laws/Arith.lean ====
section
/-! SUPPORT. What the modular arithmetic answers: one lemma per operation, in the library's terms. -/

namespace Sys2Proof.Machine

/-! ## The limits of a configuration -/

theorem config_bounds (c : Config) :
    1 ≤ c.n ∧ c.n ≤ 256 ∧ 2 ≤ c.q ∧ c.q ≤ 65535 ∧ c.n * (c.q - 1) * (c.q - 1) + c.q ≤ 2 ^ 31 - 1 :=
  of_decide_eq_true c.within

theorem config_q_pos (c : Config) : 0 < c.q := by
  have := config_bounds c
  omega

/-! ## Sums -/

theorem sumBelow_eq_sum (n : Nat) (f : Nat → Int) : sumBelow n f = (Finset.range n).sum f := by
  induction n with
  | zero => rfl
  | succ n ih => rw [sumBelow, ih, Finset.sum_range_succ]

theorem sumBelow_congr {n : Nat} {f g : Nat → Int} (h : ∀ k < n, f k = g k) : sumBelow n f = sumBelow n g := by
  rw [sumBelow_eq_sum, sumBelow_eq_sum]
  exact Finset.sum_congr rfl fun k hk => h k (Finset.mem_range.1 hk)

/-! ## Reduction -/

theorem modq_cast {q : Nat} (hq : 0 < q) (x : Int) : (modq q x : Int) = x % q :=
  Int.toNat_of_nonneg (Int.emod_nonneg x (by omega))

theorem modq_lt {q : Nat} (hq : 0 < q) (x : Int) : modq q x < q := by
  have h := Int.emod_lt_of_pos x (b := (q : Int)) (by omega)
  rw [← modq_cast hq] at h
  omega

theorem modq_dvd {q : Nat} (hq : 0 < q) (x : Int) : (q : Int) ∣ x - modq q x := by
  rw [modq_cast hq]
  exact Int.dvd_self_sub_emod

/-! ## Inner and matrix-vector products -/

theorem dot_lt {q : Nat} (hq : 0 < q) (n : Nat) (a b : Nat → Nat) : dot n q a b < q := modq_lt hq _

theorem dot_dvd {q : Nat} (hq : 0 < q) (n : Nat) (a b : Nat → Nat) :
    (q : Int) ∣ ((Finset.range n).sum fun k => (a k : Int) * (b k : Int)) - dot n q a b := by
  rw [← sumBelow_eq_sum]
  exact modq_dvd hq _

theorem matvecT_eq_matvec (n q : Nat) (m : Nat → Nat → Nat) (x : Nat → Nat) :
    matvecT n q m x = matvec n q (fun i j => m j i) x := rfl

@[simp] theorem matvec_length (n q : Nat) (m : Nat → Nat → Nat) (x : Nat → Nat) : (matvec n q m x).length = n := by
  simp [matvec]

@[simp] theorem matvecT_length (n q : Nat) (m : Nat → Nat → Nat) (x : Nat → Nat) : (matvecT n q m x).length = n := by
  simp [matvecT]

theorem getD_map_range {α : Type} (n : Nat) (f : Nat → α) (d : α) {i : Nat} (hi : i < n) :
    ((List.range n).map f).getD i d = f i := by
  simp [List.getD_eq_getElem?_getD, hi]

theorem matvec_getD (n q : Nat) (m : Nat → Nat → Nat) (x : Nat → Nat) {i : Nat} (hi : i < n) :
    (matvec n q m x).getD i 0 = dot n q (m i) x := getD_map_range n _ 0 hi

theorem matvecT_getD (n q : Nat) (m : Nat → Nat → Nat) (x : Nat → Nat) {j : Nat} (hj : j < n) :
    (matvecT n q m x).getD j 0 = dot n q (fun i => m i j) x := getD_map_range n _ 0 hj

theorem matvec_mem_lt {q : Nat} (hq : 0 < q) (n : Nat) (m : Nat → Nat → Nat) (x : Nat → Nat) :
    ∀ y ∈ matvec n q m x, y < q := by
  intro y hy
  obtain ⟨i, -, rfl⟩ := List.mem_map.1 hy
  exact dot_lt hq _ _ _

theorem matvecT_mem_lt {q : Nat} (hq : 0 < q) (n : Nat) (m : Nat → Nat → Nat) (x : Nat → Nat) :
    ∀ y ∈ matvecT n q m x, y < q := by
  rw [matvecT_eq_matvec]
  exact matvec_mem_lt hq _ _ _

end Sys2Proof.Machine
end

