-- ==== Sys2Proof/Laws/Draws.lean ====
section
/-! SUPPORT. What a draw answers under the port's contract, and what is consumed. -/

namespace Sys2Proof.Machine

/-- The answer met by the `k`-th request keeps the contract for its kind. -/
theorem contractKept_at {q : Nat} {ks : List DrawKind} {as : List Answer} (h : contractKept q ks as = true) :
    ∀ {k : Nat} {d : DrawKind} {a : Answer}, ks[k]? = some d → as[k]? = some a → answerFits q d a = true := by
  induction ks generalizing as with
  | nil => intro k d a hk; simp at hk
  | cons d ks ih =>
    cases as with
    | nil => intro k d a _ ha; simp at ha
    | cons b as =>
      rw [contractKept, Bool.and_eq_true] at h
      intro k e a hk ha
      cases k with
      | zero =>
        simp only [List.getElem?_cons_zero, Option.some.injEq] at hk ha
        rw [← hk, ← ha]
        exact h.1
      | succ k => exact ih h.2 (by simpa using hk) (by simpa using ha)

@[simp] theorem contractKept_nil (q : Nat) (as : List Answer) : contractKept q [] as = true := by
  cases as <;> rfl

theorem drawKinds_keygen_length (n : Nat) : (drawKinds n .keygen).length = n + n * n + 1 := by
  simp [drawKinds, Nat.add_assoc]

theorem drawKinds_enc_length (n : Nat) : (drawKinds n .enc).length = n := by
  simp [drawKinds]

/-- The `n`-th to the `n + n*n - 1`-th requests of KEYGEN are of kind `MODQ` (R113). -/
theorem drawKinds_keygen_modq {n k : Nat} (hk : k < n * n) : (drawKinds n .keygen)[n + k]? = some .modq := by
  simp [drawKinds, List.getElem?_append, hk]

/-- A `MODQ` draw is in its domain when the answer it meets, if any, keeps the contract. -/
theorem drawModq_lt (s : State) (k : Nat)
    (h : ∀ a, s.env.answers[k]? = some a → answerFits s.cfg.q .modq a = true) : drawModq s k < s.cfg.q := by
  have hq := config_q_pos s.cfg
  have free : (Config.freeModq (s.cfg.q - 1) (s.env.drawCount + k)).val < s.cfg.q := by omega
  unfold drawModq
  split
  · next w hw => simpa [answerFits] using h _ hw
  · exact free
  · exact free
  · exact free

@[simp] theorem drawBinaryVector_length (s : State) (start n : Nat) : (drawBinaryVector s start n).length = n := by
  simp [drawBinaryVector]

@[simp] theorem drawMatrix_length (s : State) (start n : Nat) : (drawMatrix s start n).length = n := by
  simp [drawMatrix]

theorem drawBinaryVector_getD (s : State) (start n : Nat) {k : Nat} (hk : k < n) :
    (drawBinaryVector s start n).getD k false = drawBit s (start + k) := getD_map_range n _ false hk

theorem drawMatrix_getD (s : State) (start n : Nat) {i j : Nat} (hi : i < n) (hj : j < n) :
    ((drawMatrix s start n).getD i []).getD j 0 = drawModq s (start + n * i + j) := by
  rw [drawMatrix, getD_map_range n _ [] hi, getD_map_range n _ 0 hj]

end Sys2Proof.Machine
end

