-- ==== Sys2Proof/Laws/State.lean ====
section
/-! SUPPORT. One lemma per field per named update of State, true by unfolding once, so that no later proof unfolds a
record update. -/

namespace Sys2Proof.Machine

/-! ## finish -/

@[simp] theorem finish_cfg (s : State) : (finish s).cfg = s.cfg := rfl
@[simp] theorem finish_phase (s : State) : (finish s).phase = .idle := rfl
@[simp] theorem finish_cmdl (s : State) : (finish s).cmdl = none := rfl
@[simp] theorem finish_err (s : State) : (finish s).err = s.err := rfl
@[simp] theorem finish_errinfo (s : State) : (finish s).errinfo = s.errinfo := rfl
@[simp] theorem finish_xin (s : State) : (finish s).xin = s.xin := rfl
@[simp] theorem finish_res (s : State) : (finish s).res = s.res := rfl
@[simp] theorem finish_pbit (s : State) : (finish s).pbit = s.pbit := rfl
@[simp] theorem finish_sv (s : State) : (finish s).sv = s.sv := rfl
@[simp] theorem finish_vb (s : State) : (finish s).vb = s.vb := rfl
@[simp] theorem finish_vu (s : State) : (finish s).vu = s.vu := rfl
@[simp] theorem finish_vs (s : State) : (finish s).vs = s.vs := rfl
@[simp] theorem finish_vr (s : State) : (finish s).vr = s.vr := rfl
@[simp] theorem finish_ma (s : State) : (finish s).ma = s.ma := rfl
@[simp] theorem finish_env (s : State) : (finish s).env = s.env := rfl

/-! ## consumeDraws -/

@[simp] theorem consumeDraws_cfg (s : State) (m : Nat) : (consumeDraws s m).cfg = s.cfg := rfl
@[simp] theorem consumeDraws_phase (s : State) (m : Nat) : (consumeDraws s m).phase = s.phase := rfl
@[simp] theorem consumeDraws_cmdl (s : State) (m : Nat) : (consumeDraws s m).cmdl = s.cmdl := rfl
@[simp] theorem consumeDraws_err (s : State) (m : Nat) : (consumeDraws s m).err = s.err := rfl
@[simp] theorem consumeDraws_errinfo (s : State) (m : Nat) : (consumeDraws s m).errinfo = s.errinfo := rfl
@[simp] theorem consumeDraws_xin (s : State) (m : Nat) : (consumeDraws s m).xin = s.xin := rfl
@[simp] theorem consumeDraws_res (s : State) (m : Nat) : (consumeDraws s m).res = s.res := rfl
@[simp] theorem consumeDraws_pbit (s : State) (m : Nat) : (consumeDraws s m).pbit = s.pbit := rfl
@[simp] theorem consumeDraws_sv (s : State) (m : Nat) : (consumeDraws s m).sv = s.sv := rfl
@[simp] theorem consumeDraws_vb (s : State) (m : Nat) : (consumeDraws s m).vb = s.vb := rfl
@[simp] theorem consumeDraws_vu (s : State) (m : Nat) : (consumeDraws s m).vu = s.vu := rfl
@[simp] theorem consumeDraws_vs (s : State) (m : Nat) : (consumeDraws s m).vs = s.vs := rfl
@[simp] theorem consumeDraws_vr (s : State) (m : Nat) : (consumeDraws s m).vr = s.vr := rfl
@[simp] theorem consumeDraws_ma (s : State) (m : Nat) : (consumeDraws s m).ma = s.ma := rfl
@[simp] theorem consumeDraws_env (s : State) (m : Nat) : (consumeDraws s m).env = { s.env with answers := [], drawCount := s.env.drawCount + m } := rfl

/-! ## clearError -/

@[simp] theorem clearError_cfg (s : State) : (clearError s).cfg = s.cfg := rfl
@[simp] theorem clearError_phase (s : State) : (clearError s).phase = s.phase := rfl
@[simp] theorem clearError_cmdl (s : State) : (clearError s).cmdl = s.cmdl := rfl
@[simp] theorem clearError_err (s : State) : (clearError s).err = .errNone := rfl
@[simp] theorem clearError_errinfo (s : State) : (clearError s).errinfo = 0#32 := rfl
@[simp] theorem clearError_xin (s : State) : (clearError s).xin = s.xin := rfl
@[simp] theorem clearError_res (s : State) : (clearError s).res = s.res := rfl
@[simp] theorem clearError_pbit (s : State) : (clearError s).pbit = s.pbit := rfl
@[simp] theorem clearError_sv (s : State) : (clearError s).sv = s.sv := rfl
@[simp] theorem clearError_vb (s : State) : (clearError s).vb = s.vb := rfl
@[simp] theorem clearError_vu (s : State) : (clearError s).vu = s.vu := rfl
@[simp] theorem clearError_vs (s : State) : (clearError s).vs = s.vs := rfl
@[simp] theorem clearError_vr (s : State) : (clearError s).vr = s.vr := rfl
@[simp] theorem clearError_ma (s : State) : (clearError s).ma = s.ma := rfl
@[simp] theorem clearError_env (s : State) : (clearError s).env = s.env := rfl

/-! ## takeTurn -/

@[simp] theorem takeTurn_cfg (s : State) : (takeTurn s).cfg = s.cfg := rfl
@[simp] theorem takeTurn_phase (s : State) : (takeTurn s).phase = s.phase := rfl
@[simp] theorem takeTurn_cmdl (s : State) : (takeTurn s).cmdl = s.cmdl := rfl
@[simp] theorem takeTurn_err (s : State) : (takeTurn s).err = s.err := rfl
@[simp] theorem takeTurn_errinfo (s : State) : (takeTurn s).errinfo = s.errinfo := rfl
@[simp] theorem takeTurn_xin (s : State) : (takeTurn s).xin = s.xin := rfl
@[simp] theorem takeTurn_res (s : State) : (takeTurn s).res = s.res := rfl
@[simp] theorem takeTurn_pbit (s : State) : (takeTurn s).pbit = s.pbit := rfl
@[simp] theorem takeTurn_sv (s : State) : (takeTurn s).sv = s.sv := rfl
@[simp] theorem takeTurn_vb (s : State) : (takeTurn s).vb = s.vb := rfl
@[simp] theorem takeTurn_vu (s : State) : (takeTurn s).vu = s.vu := rfl
@[simp] theorem takeTurn_vs (s : State) : (takeTurn s).vs = s.vs := rfl
@[simp] theorem takeTurn_vr (s : State) : (takeTurn s).vr = s.vr := rfl
@[simp] theorem takeTurn_ma (s : State) : (takeTurn s).ma = s.ma := rfl
@[simp] theorem takeTurn_env (s : State) : (takeTurn s).env = { s.env with turns := s.env.turns.drop 1 } := rfl

/-! ## setScript -/

@[simp] theorem setScript_cfg (s : State) (ls : List HostLine) : (setScript s ls).cfg = s.cfg := rfl
@[simp] theorem setScript_phase (s : State) (ls : List HostLine) : (setScript s ls).phase = s.phase := rfl
@[simp] theorem setScript_cmdl (s : State) (ls : List HostLine) : (setScript s ls).cmdl = s.cmdl := rfl
@[simp] theorem setScript_err (s : State) (ls : List HostLine) : (setScript s ls).err = s.err := rfl
@[simp] theorem setScript_errinfo (s : State) (ls : List HostLine) : (setScript s ls).errinfo = s.errinfo := rfl
@[simp] theorem setScript_xin (s : State) (ls : List HostLine) : (setScript s ls).xin = s.xin := rfl
@[simp] theorem setScript_res (s : State) (ls : List HostLine) : (setScript s ls).res = s.res := rfl
@[simp] theorem setScript_pbit (s : State) (ls : List HostLine) : (setScript s ls).pbit = s.pbit := rfl
@[simp] theorem setScript_sv (s : State) (ls : List HostLine) : (setScript s ls).sv = s.sv := rfl
@[simp] theorem setScript_vb (s : State) (ls : List HostLine) : (setScript s ls).vb = s.vb := rfl
@[simp] theorem setScript_vu (s : State) (ls : List HostLine) : (setScript s ls).vu = s.vu := rfl
@[simp] theorem setScript_vs (s : State) (ls : List HostLine) : (setScript s ls).vs = s.vs := rfl
@[simp] theorem setScript_vr (s : State) (ls : List HostLine) : (setScript s ls).vr = s.vr := rfl
@[simp] theorem setScript_ma (s : State) (ls : List HostLine) : (setScript s ls).ma = s.ma := rfl
@[simp] theorem setScript_env (s : State) (ls : List HostLine) : (setScript s ls).env = { s.env with script := ls } := rfl

/-! ## announce -/

@[simp] theorem announce_cfg (s : State) (as : List Answer) : (announce s as).cfg = s.cfg := rfl
@[simp] theorem announce_phase (s : State) (as : List Answer) : (announce s as).phase = s.phase := rfl
@[simp] theorem announce_cmdl (s : State) (as : List Answer) : (announce s as).cmdl = s.cmdl := rfl
@[simp] theorem announce_err (s : State) (as : List Answer) : (announce s as).err = s.err := rfl
@[simp] theorem announce_errinfo (s : State) (as : List Answer) : (announce s as).errinfo = s.errinfo := rfl
@[simp] theorem announce_xin (s : State) (as : List Answer) : (announce s as).xin = s.xin := rfl
@[simp] theorem announce_res (s : State) (as : List Answer) : (announce s as).res = s.res := rfl
@[simp] theorem announce_pbit (s : State) (as : List Answer) : (announce s as).pbit = s.pbit := rfl
@[simp] theorem announce_sv (s : State) (as : List Answer) : (announce s as).sv = s.sv := rfl
@[simp] theorem announce_vb (s : State) (as : List Answer) : (announce s as).vb = s.vb := rfl
@[simp] theorem announce_vu (s : State) (as : List Answer) : (announce s as).vu = s.vu := rfl
@[simp] theorem announce_vs (s : State) (as : List Answer) : (announce s as).vs = s.vs := rfl
@[simp] theorem announce_vr (s : State) (as : List Answer) : (announce s as).vr = s.vr := rfl
@[simp] theorem announce_ma (s : State) (as : List Answer) : (announce s as).ma = s.ma := rfl
@[simp] theorem announce_env (s : State) (as : List Answer) : (announce s as).env = { s.env with announced := as } := rfl

/-! ## bindDraws -/

@[simp] theorem bindDraws_cfg (s : State) : (bindDraws s).cfg = s.cfg := rfl
@[simp] theorem bindDraws_phase (s : State) : (bindDraws s).phase = s.phase := rfl
@[simp] theorem bindDraws_cmdl (s : State) : (bindDraws s).cmdl = s.cmdl := rfl
@[simp] theorem bindDraws_err (s : State) : (bindDraws s).err = s.err := rfl
@[simp] theorem bindDraws_errinfo (s : State) : (bindDraws s).errinfo = s.errinfo := rfl
@[simp] theorem bindDraws_xin (s : State) : (bindDraws s).xin = s.xin := rfl
@[simp] theorem bindDraws_res (s : State) : (bindDraws s).res = s.res := rfl
@[simp] theorem bindDraws_pbit (s : State) : (bindDraws s).pbit = s.pbit := rfl
@[simp] theorem bindDraws_sv (s : State) : (bindDraws s).sv = s.sv := rfl
@[simp] theorem bindDraws_vb (s : State) : (bindDraws s).vb = s.vb := rfl
@[simp] theorem bindDraws_vu (s : State) : (bindDraws s).vu = s.vu := rfl
@[simp] theorem bindDraws_vs (s : State) : (bindDraws s).vs = s.vs := rfl
@[simp] theorem bindDraws_vr (s : State) : (bindDraws s).vr = s.vr := rfl
@[simp] theorem bindDraws_ma (s : State) : (bindDraws s).ma = s.ma := rfl
@[simp] theorem bindDraws_env (s : State) :
    (bindDraws s).env = { s.env with answers := s.env.announced, announced := [] } := rfl

/-! ## hostReadLine -/

@[simp] theorem hostReadLine_cfg (s : State) (a : HostAddr) : (hostReadLine s a).cfg = s.cfg := rfl
@[simp] theorem hostReadLine_phase (s : State) (a : HostAddr) : (hostReadLine s a).phase = s.phase := rfl
@[simp] theorem hostReadLine_cmdl (s : State) (a : HostAddr) : (hostReadLine s a).cmdl = s.cmdl := rfl
@[simp] theorem hostReadLine_err (s : State) (a : HostAddr) : (hostReadLine s a).err = s.err := rfl
@[simp] theorem hostReadLine_errinfo (s : State) (a : HostAddr) : (hostReadLine s a).errinfo = s.errinfo := rfl
@[simp] theorem hostReadLine_xin (s : State) (a : HostAddr) : (hostReadLine s a).xin = s.xin := rfl
@[simp] theorem hostReadLine_res (s : State) (a : HostAddr) : (hostReadLine s a).res = s.res := rfl
@[simp] theorem hostReadLine_pbit (s : State) (a : HostAddr) : (hostReadLine s a).pbit = s.pbit := rfl
@[simp] theorem hostReadLine_sv (s : State) (a : HostAddr) : (hostReadLine s a).sv = s.sv := rfl
@[simp] theorem hostReadLine_vb (s : State) (a : HostAddr) : (hostReadLine s a).vb = s.vb := rfl
@[simp] theorem hostReadLine_vu (s : State) (a : HostAddr) : (hostReadLine s a).vu = s.vu := rfl
@[simp] theorem hostReadLine_vs (s : State) (a : HostAddr) : (hostReadLine s a).vs = s.vs := rfl
@[simp] theorem hostReadLine_vr (s : State) (a : HostAddr) : (hostReadLine s a).vr = s.vr := rfl
@[simp] theorem hostReadLine_ma (s : State) (a : HostAddr) : (hostReadLine s a).ma = s.ma := rfl

/-! ## latchForCore -/

@[simp] theorem latchForCore_cfg (s : State) (cw : Word) : (latchForCore s cw).cfg = s.cfg := rfl
@[simp] theorem latchForCore_phase (s : State) (cw : Word) : (latchForCore s cw).phase = .busy := rfl
@[simp] theorem latchForCore_cmdl (s : State) (cw : Word) : (latchForCore s cw).cmdl = some cw := rfl
@[simp] theorem latchForCore_err (s : State) (cw : Word) : (latchForCore s cw).err = s.err := rfl
@[simp] theorem latchForCore_errinfo (s : State) (cw : Word) : (latchForCore s cw).errinfo = s.errinfo := rfl
@[simp] theorem latchForCore_xin (s : State) (cw : Word) : (latchForCore s cw).xin = s.xin := rfl
@[simp] theorem latchForCore_res (s : State) (cw : Word) : (latchForCore s cw).res = s.res := rfl
@[simp] theorem latchForCore_pbit (s : State) (cw : Word) : (latchForCore s cw).pbit = s.pbit := rfl
@[simp] theorem latchForCore_sv (s : State) (cw : Word) : (latchForCore s cw).sv = s.sv := rfl
@[simp] theorem latchForCore_vb (s : State) (cw : Word) : (latchForCore s cw).vb = s.vb := rfl
@[simp] theorem latchForCore_vu (s : State) (cw : Word) : (latchForCore s cw).vu = s.vu := rfl
@[simp] theorem latchForCore_vs (s : State) (cw : Word) : (latchForCore s cw).vs = s.vs := rfl
@[simp] theorem latchForCore_vr (s : State) (cw : Word) : (latchForCore s cw).vr = s.vr := rfl
@[simp] theorem latchForCore_ma (s : State) (cw : Word) : (latchForCore s cw).ma = s.ma := rfl
@[simp] theorem latchForCore_env (s : State) (cw : Word) : (latchForCore s cw).env =
    { s.env with turns := .core :: s.env.turns, answers := s.env.announced, announced := [] } := rfl

/-! ## resetEvent -/

@[simp] theorem resetEvent_cfg (s : State) : (resetEvent s).cfg = s.cfg := rfl
@[simp] theorem resetEvent_phase (s : State) : (resetEvent s).phase = .idle := rfl
@[simp] theorem resetEvent_cmdl (s : State) : (resetEvent s).cmdl = none := rfl
@[simp] theorem resetEvent_err (s : State) : (resetEvent s).err = .errNone := rfl
@[simp] theorem resetEvent_errinfo (s : State) : (resetEvent s).errinfo = 0#32 := rfl
@[simp] theorem resetEvent_xin (s : State) : (resetEvent s).xin = 0#32 := rfl
@[simp] theorem resetEvent_res (s : State) : (resetEvent s).res = 0 := rfl
@[simp] theorem resetEvent_pbit (s : State) : (resetEvent s).pbit = false := rfl
@[simp] theorem resetEvent_sv (s : State) : (resetEvent s).sv = 0 := rfl
@[simp] theorem resetEvent_vb (s : State) : (resetEvent s).vb = List.replicate s.cfg.n 0 := rfl
@[simp] theorem resetEvent_vu (s : State) : (resetEvent s).vu = List.replicate s.cfg.n 0 := rfl
@[simp] theorem resetEvent_vs (s : State) : (resetEvent s).vs = List.replicate s.cfg.n false := rfl
@[simp] theorem resetEvent_vr (s : State) : (resetEvent s).vr = List.replicate s.cfg.n false := rfl
@[simp] theorem resetEvent_ma (s : State) : (resetEvent s).ma = List.replicate s.cfg.n (List.replicate s.cfg.n 0) := rfl
@[simp] theorem resetEvent_env (s : State) : (resetEvent s).env = s.env := rfl

/-! ## raiseError: only ERR and ERRINFO can change -/

@[simp] theorem raiseError_cfg (s : State) (e : ErrCode) (info : Word) : (raiseError s e info).cfg = s.cfg := by
  unfold raiseError; split <;> rfl
@[simp] theorem raiseError_phase (s : State) (e : ErrCode) (info : Word) : (raiseError s e info).phase = s.phase := by
  unfold raiseError; split <;> rfl
@[simp] theorem raiseError_cmdl (s : State) (e : ErrCode) (info : Word) : (raiseError s e info).cmdl = s.cmdl := by
  unfold raiseError; split <;> rfl
@[simp] theorem raiseError_xin (s : State) (e : ErrCode) (info : Word) : (raiseError s e info).xin = s.xin := by
  unfold raiseError; split <;> rfl
@[simp] theorem raiseError_res (s : State) (e : ErrCode) (info : Word) : (raiseError s e info).res = s.res := by
  unfold raiseError; split <;> rfl
@[simp] theorem raiseError_pbit (s : State) (e : ErrCode) (info : Word) : (raiseError s e info).pbit = s.pbit := by
  unfold raiseError; split <;> rfl
@[simp] theorem raiseError_sv (s : State) (e : ErrCode) (info : Word) : (raiseError s e info).sv = s.sv := by
  unfold raiseError; split <;> rfl
@[simp] theorem raiseError_vb (s : State) (e : ErrCode) (info : Word) : (raiseError s e info).vb = s.vb := by
  unfold raiseError; split <;> rfl
@[simp] theorem raiseError_vu (s : State) (e : ErrCode) (info : Word) : (raiseError s e info).vu = s.vu := by
  unfold raiseError; split <;> rfl
@[simp] theorem raiseError_vs (s : State) (e : ErrCode) (info : Word) : (raiseError s e info).vs = s.vs := by
  unfold raiseError; split <;> rfl
@[simp] theorem raiseError_vr (s : State) (e : ErrCode) (info : Word) : (raiseError s e info).vr = s.vr := by
  unfold raiseError; split <;> rfl
@[simp] theorem raiseError_ma (s : State) (e : ErrCode) (info : Word) : (raiseError s e info).ma = s.ma := by
  unfold raiseError; split <;> rfl
@[simp] theorem raiseError_env (s : State) (e : ErrCode) (info : Word) : (raiseError s e info).env = s.env := by
  unfold raiseError; split <;> rfl

/-! ## setDst: only the destination can change -/

@[simp] theorem setDst_cfg (s : State) (dst : DstSel) (y : List Nat) : (setDst s dst y).cfg = s.cfg := by
  cases dst <;> rfl
@[simp] theorem setDst_phase (s : State) (dst : DstSel) (y : List Nat) : (setDst s dst y).phase = s.phase := by
  cases dst <;> rfl
@[simp] theorem setDst_cmdl (s : State) (dst : DstSel) (y : List Nat) : (setDst s dst y).cmdl = s.cmdl := by
  cases dst <;> rfl
@[simp] theorem setDst_err (s : State) (dst : DstSel) (y : List Nat) : (setDst s dst y).err = s.err := by
  cases dst <;> rfl
@[simp] theorem setDst_errinfo (s : State) (dst : DstSel) (y : List Nat) : (setDst s dst y).errinfo = s.errinfo := by
  cases dst <;> rfl
@[simp] theorem setDst_xin (s : State) (dst : DstSel) (y : List Nat) : (setDst s dst y).xin = s.xin := by
  cases dst <;> rfl
@[simp] theorem setDst_res (s : State) (dst : DstSel) (y : List Nat) : (setDst s dst y).res = s.res := by
  cases dst <;> rfl
@[simp] theorem setDst_pbit (s : State) (dst : DstSel) (y : List Nat) : (setDst s dst y).pbit = s.pbit := by
  cases dst <;> rfl
@[simp] theorem setDst_sv (s : State) (dst : DstSel) (y : List Nat) : (setDst s dst y).sv = s.sv := by
  cases dst <;> rfl
@[simp] theorem setDst_vb (s : State) (dst : DstSel) (y : List Nat) : (setDst s dst y).vb = if dst = .vb then y else s.vb := by
  cases dst <;> rfl
@[simp] theorem setDst_vu (s : State) (dst : DstSel) (y : List Nat) : (setDst s dst y).vu = if dst = .vu then y else s.vu := by
  cases dst <;> rfl
@[simp] theorem setDst_vs (s : State) (dst : DstSel) (y : List Nat) : (setDst s dst y).vs = s.vs := by
  cases dst <;> rfl
@[simp] theorem setDst_vr (s : State) (dst : DstSel) (y : List Nat) : (setDst s dst y).vr = s.vr := by
  cases dst <;> rfl
@[simp] theorem setDst_ma (s : State) (dst : DstSel) (y : List Nat) : (setDst s dst y).ma = s.ma := by
  cases dst <;> rfl
@[simp] theorem setDst_env (s : State) (dst : DstSel) (y : List Nat) : (setDst s dst y).env = s.env := by
  cases dst <;> rfl

end Sys2Proof.Machine
end

