-- ==== Sys2Proof/Laws/Exec.lean ====
section
/-! SUPPORT. What a meaning can do, said once each: "if it answers next t, then …". -/

namespace Sys2Proof.Machine

theorem completeWithDraws_next {s t results : State} {i : Instr} (h : completeWithDraws s i results = .next t) :
    contractKept s.cfg.q (drawKinds s.cfg.n i) s.env.answers = true
      ∧ t = finish (consumeDraws results (drawKinds s.cfg.n i).length) := by
  unfold completeWithDraws at h
  split at h
  · next hc => exact ⟨hc, by simpa using h.symm⟩
  · cases h

theorem completeWithDraws_of_contract {s results : State} {i : Instr}
    (h : contractKept s.cfg.q (drawKinds s.cfg.n i) s.env.answers = true) :
    completeWithDraws s i results = .next (finish (consumeDraws results (drawKinds s.cfg.n i).length)) := if_pos h

theorem execModred_next {s t : State} (h : execModred s = .next t) :
    t = finish { s with res := modq s.cfg.q (xinValue s) } := by
  simpa [execModred] using h.symm

theorem execDot_next {s t : State} {sa sb : VecSel} {idx : BitVec 8} (h : execDot sa sb idx s = .next t) :
    (Instr.dot sa sb idx).wf s.cfg.n = true
      ∧ t = finish { s with res := dot s.cfg.n s.cfg.q (vec s sa idx) (vec s sb idx) } := by
  unfold execDot at h
  split at h
  · next hw => exact ⟨hw, by simpa using h.symm⟩
  · cases h

theorem execMatvec_next {s t : State} {dst : DstSel} {sb : SrcSel} (h : execMatvec dst sb s = .next t) :
    t = finish (setDst s dst (matvec s.cfg.n s.cfg.q (maAt s) (srcVec s sb))) := by
  simpa [execMatvec] using h.symm

theorem execMatvecT_next {s t : State} {dst : DstSel} {sb : SrcSel} (h : execMatvecT dst sb s = .next t) :
    t = finish (setDst s dst (matvecT s.cfg.n s.cfg.q (maAt s) (srcVec s sb))) := by
  simpa [execMatvecT] using h.symm

theorem execKeygen_next {s t : State} (h : execKeygen s = .next t) :
    contractKept s.cfg.q (drawKinds s.cfg.n .keygen) s.env.answers = true
      ∧ t = finish (consumeDraws (keygenResults s) (s.cfg.n + s.cfg.n * s.cfg.n + 1)) := by
  simpa [drawKinds_keygen_length] using completeWithDraws_next h

theorem execEnc_next {s t : State} (h : execEnc s = .next t) :
    contractKept s.cfg.q (drawKinds s.cfg.n .enc) s.env.answers = true
      ∧ t = finish (consumeDraws (encResults s) s.cfg.n) := by
  simpa [drawKinds_enc_length] using completeWithDraws_next h

theorem execDec_next {s t : State} (h : execDec s = .next t) :
    t = finish { s with
      res := decideBit s.cfg.q ((s.sv : Int) - (dot s.cfg.n s.cfg.q (vuAt s) (vsAt s) : Int)) } := by
  simpa [execDec] using h.symm

theorem decideBit_lt {q : Nat} (hq : 2 ≤ q) (diff : Int) : decideBit q diff < q := by
  unfold decideBit
  split <;> omega

@[simp] theorem publicVector_length (n q : Nat) (m : List (List Nat)) (key : List Bool) (e : Int) :
    (publicVector n q m key e).length = n := by
  simp [publicVector]

theorem publicVector_mem_lt {q : Nat} (hq : 0 < q) (n : Nat) (m : List (List Nat)) (key : List Bool) (e : Int) :
    ∀ x ∈ publicVector n q m key e, x < q := by
  intro x hx
  obtain ⟨i, -, rfl⟩ := List.mem_map.1 hx
  exact modq_lt hq _

/-- What every completed command leaves: the configuration, the error record, `XIN` and `PBIT` as they were, and the
block idle (R64, R122 to R170 "Other state", R203). -/
theorem exec_keeps {i : Instr} {s t : State} (h : exec i s = .next t) :
    t.cfg = s.cfg ∧ t.err = s.err ∧ t.errinfo = s.errinfo ∧ t.xin = s.xin ∧ t.pbit = s.pbit
      ∧ t.phase = .idle ∧ t.cmdl = none := by
  cases i with
  | modred => rw [execModred_next h]; simp
  | dot sa sb idx => rw [(execDot_next h).2]; simp
  | matvec dst sb => rw [execMatvec_next h]; simp
  | matvecT dst sb => rw [execMatvecT_next h]; simp
  | keygen => rw [(execKeygen_next h).2]; simp [keygenResults]
  | enc => rw [(execEnc_next h).2]; simp [encResults]
  | dec => rw [execDec_next h]; simp

end Sys2Proof.Machine
end

