-- ==== Sys2Proof/Laws/HostPort.lean ====
section
/-! SUPPORT. What a host write can do, said once: it clears the record, records an error and nothing else, latches a
legal command, or stores one element. (spec/20_memory.md R53) -/

namespace Sys2Proof.Machine

/-- The state an accepted write of `v` to location `l` leaves (R53 step 4). -/
def storedAt (s : State) (l : Loc) (v : Word) : State :=
  match l with
  | .xin => { s with xin := v }
  | .pbit => { s with pbit := v.toNat == 1 }
  | .sv => { s with sv := v.toNat }
  | .vb k => { s with vb := s.vb.set k v.toNat }
  | .vu k => { s with vu := s.vu.set k v.toNat }
  | .vs k => { s with vs := s.vs.set k (v.toNat == 1) }
  | .vr k => { s with vr := s.vr.set k (v.toNat == 1) }
  | .ma i j => { s with ma := s.ma.set i ((s.ma.getD i []).set j v.toNat) }
  | .cfgN | .cfgQ | .status | .err | .errinfo | .cmd | .res | .unmapped => s

/-- `v` may be stored at `l`: the index exists and the word is in the location's domain (R53 step 4). -/
def storable (s : State) (l : Loc) (v : Word) : Prop :=
  match l with
  | .xin => True
  | .pbit => v.toNat ≤ 1
  | .sv => v.toNat < s.cfg.q
  | .vb k | .vu k => k < s.cfg.n ∧ v.toNat < s.cfg.q
  | .vs k | .vr k => k < s.cfg.n ∧ v.toNat ≤ 1
  | .ma i j => (i < s.cfg.n ∧ j < s.cfg.n) ∧ v.toNat < s.cfg.q
  | .cfgN | .cfgQ | .status | .err | .errinfo | .cmd | .res | .unmapped => False

theorem writeBit_cases (s : State) (a : HostAddr) (v : Word) (store : Bool → State) :
    (v.toNat ≤ 1 ∧ writeBit s a v store = store (v.toNat == 1))
      ∨ writeBit s a v store = raiseError s .errNotBit (addrInfo a) := by
  unfold writeBit
  split
  · exact .inr rfl
  · exact .inl ⟨by omega, rfl⟩

theorem writeZq_cases (s : State) (a : HostAddr) (v : Word) (store : Nat → State) :
    (v.toNat < s.cfg.q ∧ writeZq s a v store = store v.toNat)
      ∨ writeZq s a v store = raiseError s .errRange (addrInfo a) := by
  unfold writeZq
  split
  · exact .inr rfl
  · exact .inl ⟨by omega, rfl⟩

/-- The error a rejected operand write records carries the address (R26). -/
def rejectsWithAddress (s t : State) (a : HostAddr) : Prop :=
  ∃ e, (e = .errNotBit ∨ e = .errRange ∨ e = .errAddr ∨ e = .errBusy) ∧ t = raiseError s e (addrInfo a)

theorem writeIfIndexed_cases (s : State) (a : HostAddr) (b : Bool) (write : State) :
    (b = true ∧ writeIfIndexed s a b write = write) ∨ rejectsWithAddress s (writeIfIndexed s a b write) a := by
  cases b
  · exact .inr ⟨.errAddr, by simp, rfl⟩
  · exact .inl ⟨rfl, rfl⟩

theorem bitElement_cases (s : State) (a : HostAddr) (b : Bool) (v : Word) (store : Bool → State) :
    ((b = true ∧ v.toNat ≤ 1) ∧ writeIfIndexed s a b (writeBit s a v store) = store (v.toNat == 1))
      ∨ rejectsWithAddress s (writeIfIndexed s a b (writeBit s a v store)) a := by
  rcases writeIfIndexed_cases s a b (writeBit s a v store) with ⟨hb, hw⟩ | h
  · rcases writeBit_cases s a v store with ⟨hv, hs⟩ | hr
    · exact .inl ⟨⟨hb, hv⟩, hw.trans hs⟩
    · exact .inr ⟨.errNotBit, by simp, hw.trans hr⟩
  · exact .inr h

theorem zqElement_cases (s : State) (a : HostAddr) (b : Bool) (v : Word) (store : Nat → State) :
    ((b = true ∧ v.toNat < s.cfg.q) ∧ writeIfIndexed s a b (writeZq s a v store) = store v.toNat)
      ∨ rejectsWithAddress s (writeIfIndexed s a b (writeZq s a v store)) a := by
  rcases writeIfIndexed_cases s a b (writeZq s a v store) with ⟨hb, hw⟩ | h
  · rcases writeZq_cases s a v store with ⟨hv, hs⟩ | hr
    · exact .inl ⟨⟨hb, hv⟩, hw.trans hs⟩
    · exact .inr ⟨.errRange, by simp, hw.trans hr⟩
  · exact .inr h

/-- Steps 3 to 5 of `HostWrite` (R53). -/
theorem hostWriteIdle_cases (s : State) (a : HostAddr) (v : Word) :
    (locate a = .cmd ∧ legal s.cfg.n v = true ∧ hostWriteIdle s a v = { s with cmdl := some v, phase := .busy })
      ∨ (locate a = .cmd ∧ legal s.cfg.n v = false ∧ hostWriteIdle s a v = raiseError s .errOpcode v)
      ∨ (storable s (locate a) v ∧ hostWriteIdle s a v = storedAt s (locate a) v)
      ∨ rejectsWithAddress s (hostWriteIdle s a v) a := by
  unfold hostWriteIdle
  cases locate a with
  | cmd =>
    cases hl : legal s.cfg.n v with
    | true => exact .inl ⟨rfl, rfl, by simp [writeCommand, hl]⟩
    | false => exact .inr (.inl ⟨rfl, rfl, by simp [writeCommand, hl]⟩)
  | xin => exact .inr (.inr (.inl ⟨trivial, rfl⟩))
  | pbit =>
    rcases writeBit_cases s a v (fun b => { s with pbit := b }) with h | h
    · exact .inr (.inr (.inl h))
    · exact .inr (.inr (.inr ⟨.errNotBit, by simp, h⟩))
  | sv =>
    rcases writeZq_cases s a v (fun x => { s with sv := x }) with h | h
    · exact .inr (.inr (.inl h))
    · exact .inr (.inr (.inr ⟨.errRange, by simp, h⟩))
  | vb k =>
    rcases zqElement_cases s a (k < s.cfg.n) v (fun x => { s with vb := s.vb.set k x }) with ⟨⟨hk, hv⟩, h⟩ | h
    · exact .inr (.inr (.inl ⟨⟨of_decide_eq_true hk, hv⟩, h⟩))
    · exact .inr (.inr (.inr h))
  | vu k =>
    rcases zqElement_cases s a (k < s.cfg.n) v (fun x => { s with vu := s.vu.set k x }) with ⟨⟨hk, hv⟩, h⟩ | h
    · exact .inr (.inr (.inl ⟨⟨of_decide_eq_true hk, hv⟩, h⟩))
    · exact .inr (.inr (.inr h))
  | vs k =>
    rcases bitElement_cases s a (k < s.cfg.n) v (fun b => { s with vs := s.vs.set k b }) with ⟨⟨hk, hv⟩, h⟩ | h
    · exact .inr (.inr (.inl ⟨⟨of_decide_eq_true hk, hv⟩, h⟩))
    · exact .inr (.inr (.inr h))
  | vr k =>
    rcases bitElement_cases s a (k < s.cfg.n) v (fun b => { s with vr := s.vr.set k b }) with ⟨⟨hk, hv⟩, h⟩ | h
    · exact .inr (.inr (.inl ⟨⟨of_decide_eq_true hk, hv⟩, h⟩))
    · exact .inr (.inr (.inr h))
  | ma i j =>
    rcases zqElement_cases s a (i < s.cfg.n && j < s.cfg.n) v
      (fun x => { s with ma := s.ma.set i ((s.ma.getD i []).set j x) }) with ⟨⟨hk, hv⟩, h⟩ | h
    · exact .inr (.inr (.inl ⟨⟨by simpa using hk, hv⟩, h⟩))
    · exact .inr (.inr (.inr h))
  | cfgN | cfgQ | status | err | errinfo | res | unmapped =>
    exact .inr (.inr (.inr ⟨.errAddr, by simp, rfl⟩))

/-- Everything a host write can do (R53). -/
theorem hostWrite_cases (s : State) (a : HostAddr) (v : Word) :
    (locate a = .err ∧ hostWrite s a v = clearError s)
      ∨ (s.phase = .idle ∧ locate a = .cmd ∧ legal s.cfg.n v = true
          ∧ hostWrite s a v = { s with cmdl := some v, phase := .busy })
      ∨ (s.phase = .idle ∧ locate a = .cmd ∧ legal s.cfg.n v = false ∧ hostWrite s a v = raiseError s .errOpcode v)
      ∨ (s.phase = .idle ∧ storable s (locate a) v ∧ hostWrite s a v = storedAt s (locate a) v)
      ∨ rejectsWithAddress s (hostWrite s a v) a := by
  unfold hostWrite
  split
  · next h => exact .inl ⟨h, rfl⟩
  · split
    · exact .inr (.inr (.inr (.inr ⟨.errBusy, by simp, rfl⟩)))
    · next hp =>
      have idle : s.phase = .idle := by
        cases h : s.phase with
        | idle => rfl
        | busy => exact absurd h hp
      rcases hostWriteIdle_cases s a v with h | h | h | h
      · exact .inr (.inl ⟨idle, h⟩)
      · exact .inr (.inr (.inl ⟨idle, h⟩))
      · exact .inr (.inr (.inr (.inl ⟨idle, h⟩)))
      · exact .inr (.inr (.inr (.inr h)))

@[simp] theorem storedAt_cfg (s : State) (l : Loc) (v : Word) : (storedAt s l v).cfg = s.cfg := by cases l <;> rfl
@[simp] theorem storedAt_phase (s : State) (l : Loc) (v : Word) : (storedAt s l v).phase = s.phase := by
  cases l <;> rfl
@[simp] theorem storedAt_cmdl (s : State) (l : Loc) (v : Word) : (storedAt s l v).cmdl = s.cmdl := by cases l <;> rfl
@[simp] theorem storedAt_err (s : State) (l : Loc) (v : Word) : (storedAt s l v).err = s.err := by cases l <;> rfl
@[simp] theorem storedAt_errinfo (s : State) (l : Loc) (v : Word) : (storedAt s l v).errinfo = s.errinfo := by
  cases l <;> rfl
@[simp] theorem storedAt_env (s : State) (l : Loc) (v : Word) : (storedAt s l v).env = s.env := by cases l <;> rfl

/-! ## The address map is one to one -/

theorem windowAddr_toNat (base k : Nat) (hk : k < 256) : (windowAddr base k).toNat = (base + k) % 2 ^ 17 := by
  rw [windowAddr, if_pos hk, BitVec.toNat_ofNat]

/-- A named location stands at one address (R51). -/
theorem addr_locate {a : HostAddr} (hu : locate a ≠ .unmapped) : (locate a).addr = a := by
  have ha := a.isLt
  apply BitVec.eq_of_toNat_eq
  unfold locate at hu ⊢
  split
  · rw [Loc.addr, if_pos (by omega), windowAddr_toNat _ _ (by omega)]; omega
  · next hx =>
    rw [if_neg hx] at hu
    split
    · next h0 =>
      simp only [h0] at hu
      have small : a.toNat ≤ 9 := by
        by_contra hc; apply hu; unfold locateRegister; split <;> first | rfl | omega
      have all : ∀ z ≤ 9, (locateRegister z).addr.toNat = z := by decide
      exact all _ small
    · rw [Loc.addr, windowAddr_toNat _ _ (by omega)]; omega
    · rw [Loc.addr, windowAddr_toNat _ _ (by omega)]; omega
    · rw [Loc.addr, windowAddr_toNat _ _ (by omega)]; omega
    · rw [Loc.addr, windowAddr_toNat _ _ (by omega)]; omega
    · simp_all

theorem locate_injective {a a' : HostAddr} (h : locate a = locate a') (hu : locate a ≠ .unmapped) : a = a' := by
  rw [← addr_locate hu, h, addr_locate (h ▸ hu)]

/-- The law of a store: every other location keeps its word (R53, R58). -/
theorem operandWord_storedAt {s : State} {l l' : Loc} (v : Word) (h : l' ≠ l) : operandWord (storedAt s l v) l' = operandWord s l' := by
  cases l <;> cases l' <;> first
    | rfl
    | exact absurd rfl h
    | (next k k' =>
        have hk : k ≠ k' := fun e => h (by rw [e])
        simp [storedAt, operandWord, vbAt, vuAt, vsAt, vrAt, hk])
    | (next i j i' j' =>
        simp only [storedAt, operandWord, maAt, List.getD_eq_getElem?_getD, List.getElem?_set]
        by_cases hi : i = i'
        · subst hi
          have hj : j ≠ j' := fun e => h (by rw [e])
          by_cases hl : i < s.ma.length <;> simp [hl, hj]
        · simp [hi])

/-- No host write changes the configuration or the environment. -/
theorem hostWrite_keeps (s : State) (a : HostAddr) (v : Word) :
    (hostWrite s a v).cfg = s.cfg ∧ (hostWrite s a v).env = s.env := by
  rcases hostWrite_cases s a v with ⟨_, h⟩ | ⟨_, _, _, h⟩ | ⟨_, _, _, h⟩ | ⟨_, _, h⟩ | ⟨e, _, h⟩ <;> rw [h] <;> simp

/-- A host write reads nothing of the environment. -/
theorem hostWrite_withEnv (s : State) (e : Env) (a : HostAddr) (v : Word) :
    hostWrite { s with env := e } a v = { hostWrite s a v with env := e } := by
  unfold hostWrite hostWriteIdle
  split
  · rfl
  · split
    · simp only [raiseError]; split <;> rfl
    · cases locate a <;>
        simp only [writeCommand, writeBit, writeZq, writeIfIndexed, raiseError] <;> (repeat' split) <;> simp_all

end Sys2Proof.Machine
end

