-- ==== Sys2Proof/Laws/Step.lean ====
section
/-! SUPPORT. What a step can do, said once, and that a step runs the latched word. (spec/00_scope.md R12) -/

namespace Sys2Proof.Machine

/-- WR and CMD: the write, and what it does to the answers stated (R53, R89). -/
theorem hostWriteLine_cases (s : State) (a : HostAddr) (v : Word) :
    (startsCommand s a v = true ∧ hostWriteLine s a v = bindDraws (hostWrite s a v))
      ∨ (startsCommand s a v = false ∧ hostWriteLine s a v = hostWrite s a v) := by
  unfold hostWriteLine
  cases startsCommand s a v <;> simp

/-- A WR or CMD line neither reads nor writes the lines that follow it. -/
theorem hostWriteLine_setScript (s : State) (ls : List HostLine) (a : HostAddr) (v : Word) :
    hostWriteLine (setScript s ls) a v = setScript (hostWriteLine s a v) ls := by
  have hw : hostWrite (setScript s ls) a v = setScript (hostWrite s a v) ls := by
    have h := hostWrite_withEnv s (setScript s ls).env a v
    rw [setScript, setScript, (hostWrite_keeps s a v).2]
    exact h
  have hs : startsCommand (setScript s ls) a v = startsCommand s a v := rfl
  rw [hostWriteLine, hostWriteLine, hs, hw]
  split <;> rfl

/-- Everything the host can do with its lines: the DRAWS lines in front are heard, and then one action (R89). -/
theorem hostAct_cases (ls : List HostLine) (s : State) :
    ∃ as ls', hostAct ls s = setScript (announce s as) ls'
      ∨ (∃ a v, hostAct ls s = hostWriteLine (setScript (announce s as) ls') a v)
      ∨ (∃ a, hostAct ls s = hostReadLine (setScript (announce s as) ls') a)
      ∨ hostAct ls s = resetEvent (setScript (announce s as) ls') := by
  induction ls generalizing s with
  | nil => exact ⟨s.env.announced, [], .inl rfl⟩
  | cons l ls ih =>
    cases l with
    | wr a v => exact ⟨s.env.announced, ls, .inr (.inl ⟨a, v, rfl⟩)⟩
    | rd a => exact ⟨s.env.announced, ls, .inr (.inr (.inl ⟨a, rfl⟩))⟩
    | cmd i => exact ⟨s.env.announced, ls, .inr (.inl ⟨_, _, rfl⟩)⟩
    | wait =>
      unfold hostAct
      split
      · exact ⟨s.env.announced, ls, .inl rfl⟩
      · exact ⟨s.env.announced, .wait :: ls, .inl rfl⟩
    | reset => exact ⟨s.env.announced, ls, .inr (.inr (.inr rfl))⟩
    | draws as => exact ih (announce s as)

@[simp] theorem pollFindsIdle_setScript (s : State) (ls : List HostLine) :
    pollFindsIdle (setScript s ls) = pollFindsIdle s := rfl

/-- What the host does with its lines does not depend on the lines the state holds. -/
@[simp] theorem hostAct_setScript (ls ls' : List HostLine) (s : State) : hostAct ls (setScript s ls') = hostAct ls s := by
  induction ls generalizing s with
  | nil => rfl
  | cons l ls ih =>
    cases l with
    | wait => simp only [hostAct, pollFindsIdle_setScript]; rfl
    | draws as => exact ih (announce s as)
    | wr a v | rd a | cmd i | reset => rfl

/-- A DRAWS line takes no turn: the host's turn is that of the lines after it, with the answers stated (R89). -/
theorem hostTurn_draws {s : State} {as : List Answer} {ls : List HostLine} (h : s.env.script = .draws as :: ls) :
    hostTurn s = hostTurn (setScript (announce s as) ls) := by
  rw [hostTurn, h, hostTurn, hostAct_setScript]
  rfl

/-- Everything a turn of the host can do (R89). -/
theorem hostTurn_cases (s : State) :
    ∃ as ls', hostTurn s = setScript (announce s as) ls'
      ∨ (∃ a v, hostTurn s = hostWriteLine (setScript (announce s as) ls') a v)
      ∨ (∃ a, hostTurn s = hostReadLine (setScript (announce s as) ls') a)
      ∨ hostTurn s = resetEvent (setScript (announce s as) ls') := hostAct_cases _ s

/-- Everything a turn of the core can answer with (R64). -/
theorem coreTurn_next {s t : State} (h : coreTurn s = .next t) :
    (s.phase = .idle ∧ t = s)
      ∨ ∃ cw i, s.phase = .busy ∧ s.cmdl = some cw ∧ decode s.cfg.n cw = some i ∧ exec i s = .next t := by
  unfold coreTurn at h
  split at h
  · next hp => exact .inl ⟨hp, by simpa using h.symm⟩
  · next hp =>
    split at h
    · next i hi =>
      obtain ⟨cw, hcw, hd⟩ := Option.bind_eq_some_iff.1 hi
      exact .inr ⟨cw, i, hp, hcw, hd, h⟩
    · cases h

/-- Everything a step can answer with (R12). -/
theorem step_cases {s t : State} (h : step s = .next t) :
    (nextAgent s = .host ∧ t = hostTurn (takeTurn s))
      ∨ (nextAgent s = .core ∧ coreTurn (takeTurn s) = .next t)
      ∨ (nextAgent s = .reset ∧ t = resetEvent (takeTurn s)) := by
  unfold step at h
  split at h
  · next ha => exact .inl ⟨ha, by simpa using h.symm⟩
  · next ha => exact .inr (.inl ⟨ha, h⟩)
  · next ha => exact .inr (.inr ⟨ha, by simpa using h.symm⟩)

@[simp] theorem nextAgent_latchForCore (s : State) (cw : Word) : nextAgent (latchForCore s cw) = .core := rfl

end Sys2Proof.Machine
end

