-- ==== Sys2Proof/Laws/HostText.lean ====
section
/-! SUPPORT. Running a script out: what a run that is over gives, and that fuel beyond it changes nothing.
(spec/70_reset_and_hazards.md R230, spec/47_host_text_codec.md R186) -/

namespace Sys2Proof.Machine

theorem runOut_of_over {s : State} (h : s.RunOver) (fuel : Nat) : runOut fuel s = some s := by
  cases fuel <;> exact if_pos h

/-- What a run that is over says of its last steps. -/
theorem runOut_cases {fuel : Nat} {s u : State} (h : runOut fuel s = some u) :
    (s.RunOver ∧ u = s) ∨ ∃ k t, fuel = k + 1 ∧ ¬ s.RunOver ∧ step s = .next t ∧ runOut k t = some u := by
  cases fuel with
  | zero =>
    rw [runOut] at h
    split at h
    · next ho => exact .inl ⟨ho, by simpa using h.symm⟩
    · cases h
  | succ k =>
    rw [runOut] at h
    split at h
    · next ho => exact .inl ⟨ho, by simpa using h.symm⟩
    · next ho =>
      split at h
      · next t ht => exact .inr ⟨k, t, rfl, ho, ht, h⟩
      · cases h
      · cases h

theorem runOut_step {fuel : Nat} {s t : State} (ho : ¬ s.RunOver) (ht : step s = .next t) :
    runOut (fuel + 1) s = runOut fuel t := by
  rw [runOut, if_neg ho]
  simp only [ht]

/-- The state a run ends in is over (R230). -/
theorem runOut_over {fuel : Nat} {s u : State} (h : runOut fuel s = some u) : u.RunOver := by
  induction fuel generalizing s with
  | zero =>
    obtain ⟨ho, rfl⟩ | ⟨k, t, hk, -⟩ := runOut_cases h
    · exact ho
    · cases hk
  | succ n ih =>
    obtain ⟨ho, rfl⟩ | ⟨k, t, hk, -, -, hr⟩ := runOut_cases h
    · exact ho
    · cases hk
      exact ih hr

theorem runOut_mono {fuel : Nat} {s u : State} (h : runOut fuel s = some u) (m : Nat) :
    runOut (fuel + m) s = some u := by
  induction fuel generalizing s with
  | zero =>
    obtain ⟨ho, rfl⟩ | ⟨k, t, hk, -⟩ := runOut_cases h
    · exact runOut_of_over ho _
    · cases hk
  | succ n ih =>
    obtain ⟨ho, rfl⟩ | ⟨k, t, hk, ho, ht, hr⟩ := runOut_cases h
    · exact runOut_of_over ho _
    · cases hk
      rw [Nat.add_right_comm, runOut_step ho ht]
      exact ih hr

@[simp] theorem serve_answer (fuel : Nat) (r : Response) (s : State) : serve fuel (.answer r) s = some (r, s) := rfl

theorem serve_run {fuel : Nat} {ls : List HostLine} {next : List Word → HostProgram} {s t : State}
    (h : runLines fuel s ls = some t) : serve fuel (.run ls next) s = serve fuel (next t.env.received) t := by
  rw [serve]
  simp only [h]

@[simp] theorem ofCode_code (e : ErrCode) : ErrCode.ofCode e.code = e := by cases e <;> rfl

end Sys2Proof.Machine
end

