-- ==== Sys2Proof/Laws/PerInstr.lean ====
section
/-! SUPPORT. The statements made per instruction. EncodeWellFormed: the command word of a well-formed command is
legal, so a host that assembles a command can start it. (spec/30_encoding.md R84, R88) -/

namespace Sys2Proof.Laws.EncodeWellFormed

def Statement (i : Instr) : Prop := ∀ n : Nat, i.wf n = true → legal n (encode i) = true

theorem modred : Statement .modred := fun _ _ => rfl

theorem keygen : Statement .keygen := fun _ _ => rfl

theorem enc : Statement .enc := fun _ _ => rfl

theorem dec : Statement .dec := fun _ _ => rfl

theorem matvec (dst : DstSel) (sb : SrcSel) : Statement (.matvec dst sb) := fun _ _ => by
  cases dst <;> cases sb <;> rfl

theorem matvecT (dst : DstSel) (sb : SrcSel) : Statement (.matvecT dst sb) := fun _ _ => by
  cases dst <;> cases sb <;> rfl

theorem dot_code_le (s : VecSel) : s.code ≤ 5 := by cases s <;> decide

theorem usesMatrix_iff (s : VecSel) : s.usesMatrix = true ↔ 4 ≤ s.code := by cases s <;> decide

/-- The fields of a DOT word are the operands' codes and the index. -/
theorem dot_fields (sa sb : VecSel) (idx : BitVec 8) :
    opField (encode (.dot sa sb idx)) = 2 ∧ saField (encode (.dot sa sb idx)) = sa.code
      ∧ sbField (encode (.dot sa sb idx)) = sb.code ∧ dstField (encode (.dot sa sb idx)) = 0
      ∧ tField (encode (.dot sa sb idx)) = 0 ∧ rsvField (encode (.dot sa sb idx)) = 0
      ∧ idxField (encode (.dot sa sb idx)) = idx.toNat := by
  have ha := dot_code_le sa
  have hb := dot_code_le sb
  have hi := idx.isLt
  simp only [opField, saField, sbField, dstField, tField, rsvField, idxField, bits, encode, BitVec.toNat_ofNat]
  refine ⟨?_, ?_, ?_, ?_, ?_, ?_, ?_⟩ <;> omega

theorem dot (sa sb : VecSel) (idx : BitVec 8) : Statement (.dot sa sb idx) := fun n h => by
  obtain ⟨h1, h2, h3, h4, h5, h6, h7⟩ := dot_fields sa sb idx
  have ha := dot_code_le sa
  have hb := dot_code_le sb
  have hw : (if 4 ≤ sa.code ∨ 4 ≤ sb.code then decide (idx.toNat < n) else idx == 0#8) = true := by
    simpa [Instr.wf, usesMatrix_iff] using h
  have hz : idx = 0#8 → idx.toNat = 0 := fun h => by simp [h]
  unfold legal
  simp only [h1, h2, h3, h4, h5, h6, h7]
  split at hw <;> simp_all

end Sys2Proof.Laws.EncodeWellFormed
end

