-- ==== Sys2Proof/Laws/Storage.lean ====
section
/-! SUPPORT. The operand storage keeps its canonical form: at reset, under every host write, and under every command.
(spec/10_state.md R41) -/

namespace Sys2Proof.Machine

theorem all_mem_set {α : Type} {p : α → Prop} {l : List α} (h : ∀ x ∈ l, p x) {y : α} (hy : p y) (k : Nat) :
    ∀ x ∈ l.set k y, p x := by
  intro x hx
  rcases List.mem_or_eq_of_mem_set hx with h' | rfl
  · exact h x h'
  · exact hy

theorem all_mem_getD {α : Type} {p : α → Prop} {l : List α} (h : ∀ x ∈ l, p x) {d : α} (hd : p d) (k : Nat) :
    p (l.getD k d) := by
  rw [List.getD_eq_getElem?_getD]
  cases hk : l[k]? with
  | none => exact hd
  | some x => exact h x (List.mem_of_getElem? hk)

theorem resetFor_storageOk (c : Config) : (State.resetFor c).StorageOk := by
  have hq := config_q_pos c
  refine ⟨?_, ?_⟩ <;> simp +contextual [State.resetFor, List.mem_replicate, hq]

theorem resetEvent_storageOk (s : State) : (resetEvent s).StorageOk := resetFor_storageOk s.cfg

/-- A row of the matrix that exists has `N` elements, each below `Q`. -/
theorem storageOk_row {s : State} (h : s.StorageOk) {i : Nat} (hi : i < s.cfg.n) :
    (s.ma.getD i []).length = s.cfg.n ∧ ∀ x ∈ s.ma.getD i [], x < s.cfg.q := by
  obtain ⟨⟨-, -, -, -, hrows, hlen⟩, -, -, -, -, hdom⟩ := h
  have hm : s.ma.getD i [] ∈ s.ma := by
    rw [List.getD_eq_getElem _ _ (by omega)]
    exact List.getElem_mem _
  exact ⟨hlen _ hm, hdom _ hm⟩

theorem storedAt_storageOk {s : State} (h : s.StorageOk) {l : Loc} {v : Word} (hv : storable s l v) :
    (storedAt s l v).StorageOk := by
  have h0 := h
  obtain ⟨⟨h1, h2, h3, h4, h5, h6⟩, h7, h8, h9, h10, h11⟩ := h
  cases l with
  | xin => exact h0
  | pbit => exact h0
  | sv => exact ⟨⟨h1, h2, h3, h4, h5, h6⟩, h7, hv, h9, h10, h11⟩
  | vb k =>
    exact ⟨⟨by simpa [storedAt] using h1, h2, h3, h4, h5, h6⟩, h7, h8, all_mem_set h9 hv.2 k, h10, h11⟩
  | vu k =>
    exact ⟨⟨h1, by simpa [storedAt] using h2, h3, h4, h5, h6⟩, h7, h8, h9, all_mem_set h10 hv.2 k, h11⟩
  | vs k => exact ⟨⟨h1, h2, by simpa [storedAt] using h3, h4, h5, h6⟩, h7, h8, h9, h10, h11⟩
  | vr k => exact ⟨⟨h1, h2, h3, by simpa [storedAt] using h4, h5, h6⟩, h7, h8, h9, h10, h11⟩
  | ma i j =>
    have hr := storageOk_row h0 hv.1.1
    exact ⟨⟨h1, h2, h3, h4, by simpa [storedAt] using h5, all_mem_set h6 (by simpa using hr.1) i⟩,
      h7, h8, h9, h10, all_mem_set h11 (all_mem_set hr.2 hv.2 j) i⟩
  | cfgN | cfgQ | status | err | errinfo | cmd | res | unmapped => exact hv.elim

theorem raiseError_storageOk {s : State} (h : s.StorageOk) (e : ErrCode) (info : Word) :
    (raiseError s e info).StorageOk := by
  unfold raiseError
  split <;> exact h

/-- Every host write keeps the storage's form (R41, R53). -/
theorem hostWrite_storageOk {s : State} (h : s.StorageOk) (a : HostAddr) (v : Word) :
    (hostWrite s a v).StorageOk := by
  rcases hostWrite_cases s a v with ⟨_, h'⟩ | ⟨_, _, _, h'⟩ | ⟨_, _, _, h'⟩ | ⟨_, hv, h'⟩ | ⟨e, _, h'⟩ <;> rw [h']
  · exact h
  · exact h
  · exact raiseError_storageOk h _ _
  · exact storedAt_storageOk h hv
  · exact raiseError_storageOk h _ _

theorem drawMatrix_storage {s : State} (h : contractKept s.cfg.q (drawKinds s.cfg.n .keygen) s.env.answers = true) :
    ∀ row ∈ drawMatrix s s.cfg.n s.cfg.n, row.length = s.cfg.n ∧ ∀ x ∈ row, x < s.cfg.q := by
  intro row hrow
  obtain ⟨i, hi, rfl⟩ := List.mem_map.1 hrow
  refine ⟨by simp, fun x hx => ?_⟩
  obtain ⟨j, hj, rfl⟩ := List.mem_map.1 hx
  have hi' := List.mem_range.1 hi
  have hj' := List.mem_range.1 hj
  have hij : s.cfg.n * i + j < s.cfg.n * s.cfg.n := by nlinarith
  rw [Nat.add_assoc]
  exact drawModq_lt s _ fun a ha => contractKept_at h (drawKinds_keygen_modq hij) ha

/-- Every completed command keeps the storage's form: what it stores is a reduced value, a draw of the right domain
or a bit (R41). -/
theorem exec_storageOk {i : Instr} {s t : State} (h : s.StorageOk) (ht : exec i s = .next t) : t.StorageOk := by
  have hq := config_q_pos s.cfg
  have hq2 := (config_bounds s.cfg).2.2.1
  obtain ⟨⟨h1, h2, h3, h4, h5, h6⟩, h7, h8, h9, h10, h11⟩ := h
  cases i with
  | modred =>
    rw [execModred_next ht]
    exact ⟨⟨h1, h2, h3, h4, h5, h6⟩, modq_lt hq _, h8, h9, h10, h11⟩
  | dot sa sb idx =>
    rw [(execDot_next ht).2]
    exact ⟨⟨h1, h2, h3, h4, h5, h6⟩, dot_lt hq _ _ _, h8, h9, h10, h11⟩
  | matvec dst sb =>
    rw [execMatvec_next ht]
    cases dst with
    | vb => exact ⟨⟨matvec_length _ _ _ _, h2, h3, h4, h5, h6⟩, h7, h8, matvec_mem_lt hq _ _ _, h10, h11⟩
    | vu => exact ⟨⟨h1, matvec_length _ _ _ _, h3, h4, h5, h6⟩, h7, h8, h9, matvec_mem_lt hq _ _ _, h11⟩
  | matvecT dst sb =>
    rw [execMatvecT_next ht]
    cases dst with
    | vb => exact ⟨⟨matvecT_length _ _ _ _, h2, h3, h4, h5, h6⟩, h7, h8, matvecT_mem_lt hq _ _ _, h10, h11⟩
    | vu => exact ⟨⟨h1, matvecT_length _ _ _ _, h3, h4, h5, h6⟩, h7, h8, h9, matvecT_mem_lt hq _ _ _, h11⟩
  | keygen =>
    obtain ⟨hc, rfl⟩ := execKeygen_next ht
    have hm := drawMatrix_storage hc
    exact ⟨⟨publicVector_length _ _ _ _ _, h2, drawBinaryVector_length _ _ _, h4, drawMatrix_length _ _ _,
      fun row hr => (hm row hr).1⟩, h7, h8, publicVector_mem_lt hq _ _ _ _, h10, fun row hr => (hm row hr).2⟩
  | enc =>
    rw [(execEnc_next ht).2]
    exact ⟨⟨h1, matvecT_length _ _ _ _, h3, drawBinaryVector_length _ _ _, h5, h6⟩, h7, modq_lt hq _, h9,
      matvecT_mem_lt hq _ _ _, h11⟩
  | dec =>
    rw [execDec_next ht]
    exact ⟨⟨h1, h2, h3, h4, h5, h6⟩, decideBit_lt hq2 _, h8, h9, h10, h11⟩

end Sys2Proof.Machine
end

