-- ==== Sys2Proof/Tests/Slice0.lean ====
section
/-! SUPPORT. The model's own tests. Expected values are the spec's: V and P numbers are those of
spec/95_test_vectors.md. A theorem named `witness_X` shows that the hypotheses of `Obligations.X` can be met. -/

namespace Sys2Proof.Tests
open Sys2Proof Sys2Proof.Machine

/-! ## The small block of the vectors: `N = 4`, `Q = 2053` -/

abbrev c4 : Config := { n := 4, q := 2053 }

def start : State := State.resetFor c4

def after (o : Host.Outcome State Fault Refusal) : State :=
  match o with
  | .next t => t
  | .fault _ | .refused _ => start

def isNext (o : Host.Outcome State Fault Refusal) : Bool :=
  match o with
  | .next _ => true
  | .fault _ | .refused _ => false

def m1 : List (List Nat) := [[1, 2, 3, 4], [5, 6, 7, 8], [2052, 2052, 2052, 2052], [0, 0, 0, 1]]
def a1 : List (List Nat) := [[1, 2, 3, 4], [2052, 0, 1000, 7], [500, 600, 700, 800], [2052, 2052, 2052, 2052]]

def bitDraws (xs : List Nat) : List Answer := xs.map fun x => .bit (BitVec.ofNat 1 x)

def keyDraws (key : List Nat) (a : List (List Nat)) (e : Int) : List Answer :=
  bitDraws key ++ a.flatten.map (fun x => .modq (BitVec.ofNat 16 x)) ++ [.err (BitVec.ofInt 2 e)]

def withAnswers (s : State) (as : List Answer) : State := { s with env := { s.env with answers := as } }

def withScript (s : State) (ls : List HostLine) : State := { s with env := { s.env with script := ls } }

def withTurns (s : State) (as : List Agent) : State := { s with env := { s.env with turns := as } }

/-- A legal command in flight, the core's turn. -/
def inFlight (cw : Word) : State := { start with phase := .busy, cmdl := some cw }

/-! ## Ill-formed commands are refused (R84) -/

theorem test_wf_refuses_matrix_index_at_N : (Instr.dot .mrow .vs 4#8).wf 4 = false := by decide
theorem test_wf_refuses_index_without_matrix : (Instr.dot .vb .vu 1#8).wf 4 = false := by decide
theorem test_wf_takes_largest_index : (Instr.dot .vs .mcol 3#8).wf 4 = true := by decide

/-! ## Decoding: words written field by field, `IDX RSV T DST SB SA OP` (R81) -/

/-- V30-1. -/
theorem test_decode_modred :
    decode 4 (0b00000000#8 ++ 0b0000000#7 ++ 0b0#1 ++ 0b0000#4 ++ 0b0000#4 ++ 0b0000#4 ++ 0b0001#4) = some .modred := by
  decide
/-- V30-9. -/
theorem test_decode_dot :
    decode 4 (0b00000010#8 ++ 0b0000000#7 ++ 0b0#1 ++ 0b0000#4 ++ 0b0010#4 ++ 0b0100#4 ++ 0b0010#4)
      = some (.dot .mrow .vs 2#8) := by decide
/-- V30-13. -/
theorem test_decode_matvec :
    decode 4 (0b00000000#8 ++ 0b0000000#7 ++ 0b0#1 ++ 0b0001#4 ++ 0b0010#4 ++ 0b0000#4 ++ 0b0011#4)
      = some (.matvec .vu .vs) := by decide
/-- V30-14. -/
theorem test_decode_matvecT :
    decode 4 (0b00000000#8 ++ 0b0000000#7 ++ 0b1#1 ++ 0b0001#4 ++ 0b0011#4 ++ 0b0000#4 ++ 0b0011#4)
      = some (.matvecT .vu .vr) := by decide
/-- V30-16. -/
theorem test_decode_keygen_enc_dec :
    decode 4 0x00000004#32 = some .keygen ∧ decode 4 0x00000005#32 = some .enc
      ∧ decode 4 0x00000006#32 = some .dec := by decide
/-- V30-2 to V30-4, V30-10, V30-11: the order of `SA` and `SB`. -/
theorem test_decode_dot_selectors :
    decode 4 0x00000102#32 = some (.dot .vb .vu 0#8) ∧ decode 4 0x00000012#32 = some (.dot .vu .vb 0#8)
      ∧ decode 4 0x00000202#32 = some (.dot .vb .vs 0#8) ∧ decode 4 0x03000352#32 = some (.dot .mcol .vr 3#8)
      ∧ decode 4 0x01000542#32 = some (.dot .mrow .mcol 1#8) := by decide
/-- V30-17 to V30-25. -/
theorem test_decode_refuses_a :
    decode 4 0x00000000#32 = none ∧ decode 4 0x00000007#32 = none ∧ decode 4 0x0000000F#32 = none
      ∧ decode 4 0x00000011#32 = none ∧ decode 4 0x01000004#32 = none ∧ decode 4 0x00010005#32 = none
      ∧ decode 4 0x00000106#32 = none ∧ decode 4 0x00020005#32 = none ∧ decode 4 0x04000242#32 = none := by decide
/-- V30-26 to V30-33. -/
theorem test_decode_refuses_b :
    decode 4 0xFF000242#32 = none ∧ decode 4 0x01000102#32 = none ∧ decode 4 0x00000062#32 = none
      ∧ decode 4 0x00001102#32 = none ∧ decode 4 0x00010102#32 = none ∧ decode 4 0x00002203#32 = none
      ∧ decode 4 0x00000403#32 = none ∧ decode 4 0x00000213#32 = none ∧ decode 4 0x01000203#32 = none := by decide
/-- Legality depends on `N` (under V30-33). -/
theorem test_decode_depends_on_N :
    decode 3 0x03000242#32 = none ∧ decode 64 0x40000242#32 = none
      ∧ decode 128 0x40000242#32 = some (.dot .mrow .vs 64#8) := by decide
/-- V30-10 and V30-14, the words of R88. -/
theorem test_encode :
    encode (.dot .mcol .vr 3#8) = 0x03000352#32 ∧ encode (.matvecT .vu .vr) = 0x00011303#32 := by decide

/-! ## The commands on the vectors -/

/-- V41-8 and V41-15. -/
theorem test_modred :
    (after (exec .modred { start with xin := 0xFFFFFFFF#32 })).res = 2052
      ∧ (after (exec .modred { start with xin := 0x80000000#32 })).res = 1571 := by decide +kernel

def dotStart : State := { start with ma := m1, vs := [true, false, true, true] }

/-- V42-9, V42-10, V42-11. -/
theorem test_dot :
    (after (exec (.dot .mrow .vs 2#8) dotStart)).res = 2050
      ∧ (after (exec (.dot .mcol .vs 3#8) dotStart)).res = 4
      ∧ (after (exec (.dot .mrow .mcol 1#8) dotStart)).res = 39 := by decide +kernel

/-- V43-1, and V43-6: the destination is the operand. -/
theorem test_matvec :
    (after (exec (.matvec .vb .vs) dotStart)).vb = [8, 20, 2050, 1]
      ∧ (after (exec (.matvec .vb .vb) { start with ma := m1, vb := [1, 1, 1, 1] })).vb = [10, 26, 2049, 1] := by
  decide +kernel

/-- V43-2 and V43-8. -/
theorem test_matvecT :
    (after (exec (.matvecT .vu .vs) dotStart)).vu = [0, 1, 2, 4]
      ∧ (after (exec (.matvecT .vu .vu) { start with ma := m1, vu := [1, 1, 1, 1] })).vu = [5, 7, 9, 12] := by
  decide +kernel

/-- The key of V44-1. -/
def keyStart : State := withAnswers start (keyDraws [1, 0, 1, 1] a1 (-1))
def key : State := after (exec .keygen keyStart)

/-- V44-1: 21 draws are taken. -/
theorem test_keygen :
    key.vs = [true, false, true, true] ∧ key.ma = a1 ∧ key.vb = [7, 1005, 1999, 2049]
      ∧ key.env.answers = [] ∧ key.env.drawCount = 21 ∧ key.sv = 0 ∧ key.res = 0 := by decide +kernel

/-- V44-4: the true modulo of -1. -/
theorem test_keygen_wraps_below_zero :
    (after (exec .keygen (withAnswers start (keyDraws [0, 0, 0, 0] a1 (-1))))).vb = [2052, 2052, 2052, 2052] := by
  decide +kernel

/-- V45-2. -/
theorem test_enc :
    let t := after (exec .enc (withAnswers { key with pbit := true } (bitDraws [1, 1, 0, 1])))
    t.vu = [2052, 1, 1002, 10] ∧ t.sv = 2034 ∧ t.vr = [true, true, false, true] ∧ t.vb = key.vb := by decide +kernel

/-- V46-3, V46-4: the threshold below zero. -/
theorem test_dec :
    (after (exec .dec { start with vu := [513, 0, 0, 0], vs := [true, false, false, false] })).res = 0
      ∧ (after (exec .dec { start with vu := [514, 0, 0, 0], vs := [true, false, false, false] })).res = 1 := by
  decide +kernel

/-- V46-5, V46-6: the threshold is not inclusive where `Q/4` is an integer. -/
theorem test_dec_at_quarter :
    (after (exec .dec { State.resetFor { n := 4, q := 2052 } with sv := 513 })).res = 1
      ∧ (after (exec .dec { State.resetFor { n := 4, q := 2052 } with sv := 512 })).res = 0 := by decide +kernel

/-! ## Host accesses -/

/-- V20-1, V20-18. -/
theorem test_read_registers :
    hostRead start 0x00000#17 = 4#32 ∧ hostRead start 0x00001#17 = 0x805#32 ∧ hostRead start 0x00005#17 = 0#32 := by
  decide +kernel

/-- V20-4, V20-6, V20-11, V20-14. -/
theorem test_write_errors :
    hostWrite start 0x00100#17 0x805#32 = { start with err := .errRange, errinfo := 0x100#32 }
      ∧ hostWrite start 0x00301#17 2#32 = { start with err := .errNotBit, errinfo := 0x301#32 }
      ∧ hostWrite start 0x00104#17 99999#32 = { start with err := .errAddr, errinfo := 0x104#32 }
      ∧ hostWrite start 0x00007#17 1#32 = { start with err := .errAddr, errinfo := 7#32 } := by decide +kernel

/-- The codes of the table of R191, as `ERR` shows them; V60-1 for the last. -/
theorem test_error_numbers :
    hostRead start 0x00003#17 = 0#32
      ∧ hostRead (hostWrite start 0x00008#17 2#32) 0x00003#17 = 1#32
      ∧ hostRead (hostWrite start 0x00009#17 2053#32) 0x00003#17 = 2#32
      ∧ hostRead (hostWrite start 0x00007#17 1#32) 0x00003#17 = 3#32
      ∧ hostRead (hostWrite start 0x00005#17 0#32) 0x00003#17 = 4#32
      ∧ hostRead (hostWrite (inFlight 1#32) 0x00006#17 5#32) 0x00003#17 = 5#32 := by decide +kernel

/-- V20-13, V20-17. -/
theorem test_write_stores :
    hostRead (hostWrite start 0x10003#17 2052#32) 0x10003#17 = 2052#32
      ∧ (hostWrite start 0x00006#17 0xFFFFFFFF#32).xin.toInt = -1 := by decide +kernel

/-- V20-19, V20-20. -/
theorem test_error_is_sticky_until_cleared :
    let s : State := { start with err := .errNotBit, errinfo := 8#32 }
    hostWrite s 0x00100#17 2053#32 = s ∧ hostWrite s 0x00003#17 0x1234#32 = start := by decide +kernel

/-- R196: a `CMD` write while busy, whatever its word, is a busy error at address 5. -/
theorem test_busy_write :
    hostWrite (inFlight 1#32) 0x00005#17 0#32 = { inFlight 1#32 with err := .errBusy, errinfo := 5#32 } := by
  decide +kernel

/-! ## Steps -/

/-- A command placed by `withFetchWord` runs as the first instruction after reset. -/
theorem test_step_runs_fetched_word :
    decodeTableWord 32 0x3F000542 = some (.dot .mrow .mcol 63#8)
      ∧ isNext (step (State.reset.withFetchWord 32 0x3F000542)) = true := by decide +kernel

/-- R89, R64: a CMD line starts the command, the next turn completes it. -/
theorem test_cmd_line_then_completion :
    let s := after (step (withScript { start with xin := 0xFFFFFFFF#32 } [.cmd .modred]))
    s.phase = .busy ∧ s.cmdl = some 1#32 ∧ s.res = 0 ∧ (after (step s)).phase = .idle
      ∧ (after (step s)).res = 2052 := by decide +kernel

/-- V70-2: a reset with MODRED in flight and an error recorded. -/
theorem test_reset_during_command :
    resetEvent { inFlight 1#32 with xin := 5#32, err := .errBusy, errinfo := 6#32 } = start := by decide +kernel

/-- R89: DRAWS takes no step, and what is stated while ENC is in flight answers the command after it. -/
theorem test_draws_are_for_the_next_command :
    let s := after (step (withScript start [.draws (bitDraws [1, 0, 1, 0]), .cmd .enc, .draws (bitDraws [0, 1]), .wait]))
    let t := after (step (withTurns s [.host]))
    s.phase = .busy ∧ t.env.announced = bitDraws [0, 1] ∧ (after (step t)).vr = [true, false, true, false]
      ∧ (after (step t)).env.answers = [] := by decide +kernel

/-- R113, R89: MODRED is the next command and draws nothing, so what was stated for it answers no later ENC. -/
theorem test_draws_before_modred_are_lost :
    let s := after (step (withScript start [.draws (bitDraws [1]), .cmd .modred, .cmd .enc]))
    let t := after (step (after (step s)))
    s.env.answers = bitDraws [1] ∧ t.phase = .busy ∧ t.env.answers = [] := by decide +kernel

/-- R187: one element past the end is an address error also where the window is full, at `N = 256`. -/
theorem test_load_past_full_window :
    (hostWrite (State.resetFor { n := 256, q := 2 }) (elementLoc .vb 256).addr 1#32).err = .errAddr := by decide +kernel

/-- R186: a number the block rejects is answered with its error, and the record is cleared. -/
theorem test_decrypt_reports_block_error :
    (serve 40 (Request.program (.decrypt [true, false, true, true] [{ u := [1, 2, 3, 4], v := 2053 }])) start).map
        (fun r => (r.1, r.2.err, r.2.errinfo))
      = some (.error (.block .errRange 9#32), .errNone, 0#32) := by decide +kernel

/-- R184, R182: one ciphertext gives one bit, which is no text; a number with no host word is no request either. -/
theorem test_decrypt_malformed :
    (serve 40 (Request.program (.decrypt [true, false, true, true] [{ u := [2052, 1, 1002, 10], v := 2034 }])) start).map
        (fun r => r.1) = some (.error .bitsNotMultipleOf8)
      ∧ (serve 40 (Request.program (.decrypt [true, false, true, true] [{ u := [0, 0, 0, 0], v := 2 ^ 32 }])) start).map
        (fun r => r.1) = some (.error .noHostWord)
      ∧ (serve 40 (Request.program (.decrypt [true] [])) start).map (fun r => r.1) = some (.error .dimension) := by
  decide +kernel

/-- R88: two different indexes do not assemble. -/
theorem test_assemble_needs_one_index :
    assemble (.dot (.mrow 1) (.mcol 2)) = none ∧ assemble (.dot (.mrow 1) (.mcol 1)) = some (.dot .mrow .mcol 1#8) := by
  decide

/-- V47: the literal `"A"` of the source. -/
theorem test_text_literal :
    encodeTextToBits [65] = some [false, true, false, false, false, false, false, true]
      ∧ decodeBitsToText [false, true, false, false, false, false, false, true] = some [65] := by decide

/-! ## Witnesses: encoding and arithmetic -/

theorem witness_DecodeOfEncodeIsTheCommand : (Instr.dot .mrow .mcol 255#8).wf 256 = true := by decide
theorem witness_DisassembledLineAssembles : (Instr.dot .vs .mcol 255#8).wf 256 = true := by decide
theorem witness_EncodeOfDecodeIsTheWord : decode 4 0x03000242#32 = some (.dot .mrow .vs 3#8) := by decide
theorem witness_ModqIsTheTrueModulo : 2 ≤ 2 ∧ modq 2053 (-1) = 2052 ∧ modq 2 (-1) = 1 := by decide +kernel
theorem witness_PipelineStagesGiveModq : 2 ≤ 2053 ∧ modqStages 2053 (-2147483648) = 1571 := by decide +kernel
theorem witness_ReducingPerTermIsNotObservable : 2 ≤ 2053 := by decide
/-- At the reference configuration, every bound taken at its end. -/
theorem witness_SumsStayInThirtyTwoBits :
    64 ≤ Config.reference.n ∧ (∀ k < Config.reference.n, (fun _ : Nat => 2052) k < Config.reference.q)
      ∧ (-1 : Int) ≤ 2053 ∧ (2053 : Int) ≤ Config.reference.q :=
  ⟨by decide, fun _ _ => (by decide : 2052 < 2053), by decide, by decide⟩

/-! ## Witnesses: the commands -/

theorem witness_DotWritesReducedInnerProduct : (Instr.dot .mrow .mcol 3#8).wf start.cfg.n = true := by decide
theorem witness_IllFormedDotIsRefused : (Instr.dot .mrow .vs 4#8).wf start.cfg.n = false := by decide
theorem witness_KeygenStoresDrawnKey : keyStart.SourceKeepsContract .keygen ∧ start.SourceKeepsContract .keygen := by
  decide +kernel
theorem keygen_keyStart : exec .keygen keyStart = .next key := by rfl
theorem witness_KeygenResultsAreAKeyPair : ∃ t, exec .keygen keyStart = .next t := ⟨key, keygen_keyStart⟩
theorem witness_EqualDrawsGiveEqualKeys :
    let s' : State := { keyStart with sv := 7, vs := [true, true, true, true] }
    s'.cfg = keyStart.cfg ∧ s'.env.answers = keyStart.env.answers ∧ s'.env.drawCount = keyStart.env.drawCount
      ∧ s' ≠ keyStart ∧ ∃ t t', exec .keygen keyStart = .next t ∧ exec .keygen s' = .next t' :=
  ⟨rfl, rfl, rfl, by decide +kernel, key, _, keygen_keyStart, rfl⟩
theorem witness_EncStoresCiphertext :
    (withAnswers key (bitDraws [1, 1, 0, 1])).SourceKeepsContract .enc ∧ key.SourceKeepsContract .enc := by decide +kernel
theorem witness_EncResultsAreACiphertext :
    ∃ t, exec .enc (withAnswers key (bitDraws [1, 1, 0, 1])) = .next t := ⟨_, rfl⟩
theorem witness_DecisionThresholdValues : Nat.Prime 2053 ∧ 2 < 2053 := by norm_num
/-- V44-2. -/
theorem witness_MatvecRecomputesErrorFreeKey :
    let s := withAnswers start (keyDraws [1, 0, 1, 1] a1 0)
    errorDrawn s = 0 ∧ ∃ t, exec .keygen s = .next t := ⟨by decide +kernel, _, rfl⟩

/-! ## Witnesses: whole round trips -/

def encStart (k : State) (b : Bool) (r : List Nat) : State := withAnswers { k with pbit := b } (bitDraws r)
def cipher (k : State) (b : Bool) (r : List Nat) : State := after (exec .enc (encStart k b r))
def decrypted (k : State) (b : Bool) (r : List Nat) : State := after (exec .dec (cipher k b r))

/-- V45-1 decrypted: a 0 that does not wrap. -/
theorem witness_RoundTrip_zero :
    let r := [1, 1, 0, 1]
    RoundTrip keyStart key (encStart key false r) (cipher key false r) (cipher key false r) (decrypted key false r)
      ∧ (encStart key false r).pbit = false ∧ 4 * (keyStart.cfg.n : Int) < keyStart.cfg.q
      ∧ (0 : Int) ≤ innerOf (cipher key false r) + errorDrawn keyStart * onesIn (cipher key false r).vr
      ∧ innerOf (cipher key false r) + errorDrawn keyStart * onesIn (cipher key false r).vr < keyStart.cfg.q :=
  ⟨⟨rfl, ⟨rfl, rfl, rfl⟩, rfl, ⟨rfl, rfl, rfl, rfl⟩, rfl⟩, by decide +kernel⟩

/-- V45-2 decrypted: a 1, with `4*(HALF - N) >= Q`. -/
theorem witness_RoundTrip_one :
    let r := [1, 1, 0, 1]
    RoundTrip keyStart key (encStart key true r) (cipher key true r) (cipher key true r) (decrypted key true r)
      ∧ (encStart key true r).pbit = true
      ∧ (keyStart.cfg.q : Int) ≤ 4 * (((keyStart.cfg.q / 2 : Nat) : Int) - keyStart.cfg.n) :=
  ⟨⟨rfl, ⟨rfl, rfl, rfl⟩, rfl, ⟨rfl, rfl, rfl, rfl⟩, rfl⟩, by decide +kernel⟩

def wrapStart : State :=
  withAnswers start (keyDraws [1, 0, 1, 1] [[2052, 5, 1, 0], [1, 2, 3, 4], [500, 600, 700, 800], [9, 8, 7, 6]] (-1))
def wrapKey : State := after (exec .keygen wrapStart)

/-- V46-7: a 0 that wraps comes back as 1. -/
theorem witness_RoundTrip_wrap :
    let r := [1, 0, 0, 0]
    RoundTrip wrapStart wrapKey (encStart wrapKey false r) (cipher wrapKey false r) (cipher wrapKey false r)
        (decrypted wrapKey false r)
      ∧ (innerOf (cipher wrapKey false r) : Int) + errorDrawn wrapStart * onesIn (cipher wrapKey false r).vr < 0
      ∧ diffOf (cipher wrapKey false r) = 2052 ∧ (decrypted wrapKey false r).res = 1 :=
  ⟨⟨rfl, ⟨rfl, rfl, rfl⟩, rfl, ⟨rfl, rfl, rfl, rfl⟩, rfl⟩, by decide +kernel⟩

theorem witness_DecryptionIdentity : ∃ s0 s1 s2 s3 s4 s5, RoundTrip s0 s1 s2 s3 s4 s5 :=
  ⟨_, _, _, _, _, _, witness_RoundTrip_zero.1⟩
theorem witness_DecryptedBitIsRightExactlyWhen : ∃ s0 s1 s2 s3 s4 s5, RoundTrip s0 s1 s2 s3 s4 s5 ∧ s5.res = 1 :=
  ⟨_, _, _, _, _, _, witness_RoundTrip_wrap.1, by decide +kernel⟩

/-! ## Witnesses: all commands, the port -/

theorem witness_EveryCommandCompletesWithoutError :
    (Instr.dot .mrow .vs 3#8).wf dotStart.cfg.n = true ∧ dotStart.SourceKeepsContract (.dot .mrow .vs 3#8)
      ∧ Instr.keygen.wf keyStart.cfg.n = true ∧ keyStart.SourceKeepsContract .keygen := by decide +kernel
theorem witness_CommandsOverwriteOnlyTheirTable :
    (∃ t, exec .keygen keyStart = .next t) ∧ locate 0x00200#17 ≠ .status
      ∧ overwrites .keygen (locate 0x00200#17) = false := ⟨⟨key, keygen_keyStart⟩, by decide⟩
theorem witness_PortAnswersHaveTheirValues :
    let s := withAnswers start [.bit 1#1, .modq 0xFFFF#16, .err 0b11#2, .err 0b00#2, .err 0b01#2]
    s.env.answers[0]? = some (.bit 1#1) ∧ s.env.answers[1]? = some (.modq 0xFFFF#16)
      ∧ s.env.answers[2]? = some (.err 0b11#2) ∧ s.env.answers[3]? = some (.err 0b00#2)
      ∧ s.env.answers[4]? = some (.err 0b01#2) := by decide
theorem witness_ModqDrawsAreInDomain : keyStart.SourceKeepsContract .keygen ∧ 15 < keyStart.cfg.n * keyStart.cfg.n := by
  decide +kernel
/-- A `MODQ` answer of `Q`, and an answer of the wrong kind. -/
theorem witness_BrokenContractIsRefused :
    ¬ (withAnswers start (keyDraws [1, 0, 1, 1] [[2053]] 0)).SourceKeepsContract .keygen
      ∧ ¬ (withAnswers start [.err 0b10#2]).SourceKeepsContract .enc := by decide +kernel

/-! ## Witnesses: the host's accesses -/

theorem start_inv : start.Inv := ⟨by decide, ⟨by decide, fun _ h => by cases h⟩, rfl⟩
theorem inFlight_inv : (inFlight 6#32).Inv :=
  ⟨by decide, ⟨by decide, fun _ h => by cases h; decide⟩, rfl⟩

/-- The ends of every range of the map. -/
theorem witness_AddressMap :
    locate 0x0000A#17 = .unmapped ∧ locate 0x000FF#17 = .unmapped ∧ locate 0x00500#17 = .unmapped
      ∧ locate 0x0FFFF#17 = .unmapped ∧ locate 0x00100#17 = .vb 0 ∧ locate 0x001FF#17 = .vb 255
      ∧ locate 0x00200#17 = .vu 0 ∧ locate 0x002FF#17 = .vu 255 ∧ locate 0x00300#17 = .vs 0
      ∧ locate 0x003FF#17 = .vs 255 ∧ locate 0x00400#17 = .vr 0 ∧ locate 0x004FF#17 = .vr 255
      ∧ locate 0x10000#17 = .ma 0 0 ∧ locate 0x1FFFF#17 = .ma 255 255
      ∧ locate (elementLoc .vb 255).addr = .vb 255 ∧ locate (elementLoc .vb 256).addr = .unmapped := by decide
theorem witness_StatusShowsPhaseAndError :
    locate 0x00002#17 = .status ∧ (inFlight 1#32).phase = .busy ∧ start.err = .errNone := by decide
/-- One address for each clause, and the phases the last two groups ask for. -/
theorem witness_HostReadReturnsTheLocation :
    locate 0x00000#17 = .cfgN ∧ locate 0x00001#17 = .cfgQ ∧ locate 0x00002#17 = .status ∧ locate 0x00003#17 = .err
      ∧ locate 0x00004#17 = .errinfo ∧ locate 0x00005#17 = .cmd ∧ locate 0x00006#17 = .xin ∧ locate 0x00007#17 = .res
      ∧ locate 0x00008#17 = .pbit ∧ locate 0x00009#17 = .sv ∧ locate 0x001FF#17 = .vb 255
      ∧ locate 0x00200#17 = .vu 0 ∧ locate 0x00304#17 = .vs 4 ∧ locate 0x00403#17 = .vr 3
      ∧ locate 0x1FFFF#17 = .ma 255 255 ∧ locate 0x0FFFF#17 = .unmapped ∧ start.phase = .idle
      ∧ (inFlight 1#32).phase = .busy ∧ readsNormallyWhileBusy (locate 0x00007#17) = false := by decide
/-- One location of each kind, at the largest index and the largest word it takes. -/
theorem witness_AcceptedWriteReadsBack :
    start.Inv ∧ start.phase = .idle
      ∧ (isWritableOperand 4 (locate 0x00006#17) = true ∧ accepts 2053 (locate 0x00006#17) 0xFFFFFFFF#32)
      ∧ (isWritableOperand 4 (locate 0x00008#17) = true ∧ accepts 2053 (locate 0x00008#17) 1#32)
      ∧ (isWritableOperand 4 (locate 0x00009#17) = true ∧ accepts 2053 (locate 0x00009#17) 2052#32)
      ∧ (isWritableOperand 4 (locate 0x00103#17) = true ∧ accepts 2053 (locate 0x00103#17) 2052#32)
      ∧ (isWritableOperand 4 (locate 0x00403#17) = true ∧ accepts 2053 (locate 0x00403#17) 1#32)
      ∧ (isWritableOperand 4 (locate 0x10303#17) = true ∧ accepts 2053 (locate 0x10303#17) 2052#32) := by
  refine ⟨start_inv, by decide, ⟨by decide, trivial⟩, ?_⟩
  refine ⟨⟨by decide, ?_⟩, ⟨by decide, ?_⟩, ⟨by decide, ?_⟩, ⟨by decide, ?_⟩, by decide, ?_⟩ <;>
    first
      | exact show (_ : Nat) ≤ 1 by decide
      | exact show (_ : Nat) < 2053 by decide
theorem witness_LegalCommandIsLatched :
    start.phase = .idle ∧ locate 0x00005#17 = .cmd ∧ legal start.cfg.n 0x03000242#32 = true := by decide
theorem witness_NonBitWriteIsRejected :
    start.phase = .idle ∧ locate 0x00008#17 = .pbit ∧ 3 < start.cfg.n ∧ locate 0x00303#17 = .vs 3
      ∧ locate 0x00403#17 = .vr 3 ∧ 1 < (2#32 : Word).toNat := by decide
theorem witness_OutOfRangeWriteIsRejected :
    start.phase = .idle ∧ locate 0x00009#17 = .sv ∧ 3 < start.cfg.n ∧ locate 0x00103#17 = .vb 3
      ∧ locate 0x00203#17 = .vu 3 ∧ locate 0x10303#17 = .ma 3 3 ∧ start.cfg.q ≤ (2053#32 : Word).toNat := by decide
theorem witness_WriteToNoLocationIsRejected :
    start.phase = .idle ∧ locate 0x00104#17 ≠ .err ∧ locate 0x00104#17 ≠ .cmd
      ∧ isWritableOperand start.cfg.n (locate 0x00104#17) = false
      ∧ isWritableOperand start.cfg.n (locate 0x00007#17) = false
      ∧ isWritableOperand start.cfg.n (locate 0x0FFFF#17) = false := by decide
theorem witness_IllegalCommandIsRejected :
    start.phase = .idle ∧ locate 0x00005#17 = .cmd ∧ legal start.cfg.n 0x04000242#32 = false := by decide
theorem witness_WriteWhileBusyIsRejected : (inFlight 1#32).phase = .busy ∧ locate 0x00005#17 ≠ .err := by decide
theorem witness_FirstErrorWins :
    start.err = .errNone ∧ ({ start with err := .errBusy } : State).err ≠ .errNone := by decide
theorem witness_WriteToErrClearsIt :
    locate 0x00003#17 = .err ∧ locate 0x00100#17 ≠ .err ∧ ({ start with err := .errBusy } : State).err ≠ .errNone := by
  decide
theorem witness_ErrorsArePrecise :
    locate 0x00100#17 ≠ .err ∧ (hostWrite start 0x00100#17 2053#32).err ≠ start.err := by decide +kernel

/-! ## Witnesses: the step -/

theorem witness_StepKeepsInvariant :
    (start.Inv ∧ ∃ t, step start = .next t) ∧ (inFlight 6#32).Inv ∧ ∃ t, step (inFlight 6#32) = .next t :=
  ⟨⟨start_inv, _, rfl⟩, inFlight_inv, _, rfl⟩
theorem witness_OnlyABrokenContractStopsTheMachine :
    (inFlight 6#32).Inv ∧ (∃ t, step (inFlight 6#32) = .next t)
      ∧ (withAnswers (inFlight 5#32) [.err 0b10#2]).Inv
      ∧ step (withAnswers (inFlight 5#32) [.err 0b10#2]) = .refused .drawOutOfContract :=
  ⟨inFlight_inv, ⟨_, rfl⟩, ⟨by decide, ⟨by decide, fun _ h => by cases h; decide⟩, rfl⟩, rfl⟩
theorem witness_StepRunsTheLatchedCommand :
    nextAgent (inFlight 4#32) = .core ∧ (inFlight 4#32).phase = .busy ∧ (inFlight 4#32).cmdl = some 4#32
      ∧ decode (inFlight 4#32).cfg.n 4#32 = some .keygen := by decide
/-- One state for each clause. -/
theorem witness_StepOfTheOtherAgents :
    nextAgent (withTurns start [.reset]) = .reset
      ∧ (nextAgent (withTurns start [.core]) = .core ∧ (withTurns start [.core]).phase = .idle)
      ∧ (nextAgent start = .host ∧ start.env.script = [])
      ∧ (let s := withScript start [.wr 0x00006#17 1#32]; nextAgent s = .host ∧ s.env.script = .wr 0x00006#17 1#32 :: [])
      ∧ (let s := withScript start [.cmd .enc]; nextAgent s = .host ∧ s.env.script = .cmd .enc :: [])
      ∧ (let s := withScript start [.rd 0x00007#17]; nextAgent s = .host ∧ s.env.script = .rd 0x00007#17 :: [])
      ∧ (let s := withTurns (withScript (inFlight 1#32) [.rd 0x00007#17]) [.host]
         nextAgent s = .host ∧ s.env.script = .rd 0x00007#17 :: [] ∧ s.phase = .busy
          ∧ readsNormallyWhileBusy (locate 0x00007#17) = false)
      ∧ (let s := withTurns (withScript (inFlight 1#32) [.wait]) [.host]
         nextAgent s = .host ∧ s.env.script = .wait :: [] ∧ s.phase = .busy)
      ∧ (let s := withScript start [.wait]; nextAgent s = .host ∧ s.env.script = .wait :: [] ∧ s.phase = .idle)
      ∧ (let s := withScript start [.reset]; nextAgent s = .host ∧ s.env.script = .reset :: [])
      ∧ (let s := withScript start [.draws [.bit 1#1]]
         nextAgent s = .host ∧ s.env.script = .draws [.bit 1#1] :: []) := by decide
theorem witness_AcceptedCommandCompletes :
    let s := withTurns (withScript (inFlight 5#32) [.draws [.err 0b10#2], .rd 0x00002#17]) [.host]
    s.phase = .busy ∧ s.cmdl = some 5#32 ∧ decode s.cfg.n 5#32 = some .enc ∧ s.SourceKeepsContract .enc
      ∧ Agent.reset ∉ s.env.turns ∧ HostLine.reset ∉ s.env.script := by decide
theorem witness_ConfigurationNeverChanges : ∃ t, step (withTurns start [.reset]) = .next t := ⟨_, rfl⟩
theorem witness_IdleBlockChangesOnlyByWriteOrReset :
    let s := withScript start [.draws [.bit 1#1], .rd 0x00007#17]
    s.phase = .idle ∧ (∃ t, step s = .next t) ∧ nextAgent s ≠ .reset
      ∧ (∀ a v, s.nextHostLine ≠ some (.wr a v)) ∧ (∀ i, s.nextHostLine ≠ some (.cmd i))
      ∧ s.nextHostLine ≠ some .reset := by
  refine ⟨rfl, ⟨_, rfl⟩, by decide, ?_, ?_, by decide⟩ <;> simp [withScript, State.nextHostLine, HostLine.isAction]
theorem witness_OperandsOfACommandInFlightStand :
    let s := withTurns (withScript (inFlight 1#32) [.draws [.bit 1#1], .wr 0x00006#17 5#32]) [.host]
    s.phase = .busy ∧ nextAgent s = .host ∧ s.nextHostLine ≠ some .reset ∧ ∃ t, step s = .next t :=
  ⟨rfl, rfl, by decide, _, rfl⟩
/-- A request whose last write is rejected, and one whose lines record nothing. -/
theorem witness_RequestGetsOneResponse :
    start.env.turns = []
      ∧ ((runLines 5 start [.wr 0x00008#17 2#32]).map fun u => u.err) = some .errNotBit
      ∧ ((runLines 5 start [.cmd .dec, .wait, .rd 0x00007#17]).map fun u => u.env.received) = some [0#32] := by
  decide +kernel

/-! ## Witnesses: the text codec -/

theorem witness_CharacterBitsAreMostSignificantFirst :
    255 ≤ 255 ∧ 7 < 8 ∧ charBits 255 = List.replicate 8 true := by decide
theorem witness_DecodeInvertsEncodeText : ∀ c ∈ [0, 72, 255], c ≤ 255 := by decide
theorem witness_MalformedTextIsRefused :
    (∃ c ∈ [65, 256], 255 < c) ∧ 8 ∣ [true, true, true, true, true, true, true, true].length
      ∧ ¬ 8 ∣ [true, true, true, true, true, true, true].length := by decide

end Sys2Proof.Tests
end

section
/-! PROOFS. The reset state, piece by piece (spec/10_state.md R42). -/

namespace Sys2Proof.Machine

/-- `STATUS` is a view of the phase and of `ERR` alone, so nothing running and nothing recorded reads 0 (R24). -/
theorem statusWord_eq_zero_of_idle {s : State} (hphase : s.phase = .idle) (herr : s.err = .errNone) :
    statusWord s = 0#32 := by
  simp [statusWord, busyFlag, errFlag, hphase, herr]

/-- Settles O47: each piece of storage by its `resetEvent` law, and `STATUS` from the phase and `ERR` the reset leaves. -/
theorem resetLeavesTheResetState : Obligations.ResetLeavesTheResetState := by
  intro s
  have hstatus : statusWord (resetEvent s) = 0#32 :=
    statusWord_eq_zero_of_idle (resetEvent_phase s) (resetEvent_err s)
  exact ⟨resetEvent_cfg s, resetEvent_phase s, resetEvent_cmdl s, resetEvent_err s, resetEvent_errinfo s,
    resetEvent_xin s, resetEvent_res s, resetEvent_pbit s, resetEvent_sv s, resetEvent_vb s, resetEvent_vu s,
    resetEvent_vs s, resetEvent_vr s, resetEvent_ma s, hstatus⟩

end Sys2Proof.Machine
end

section
/-! PROOFS. The decoder drops no bit: a word is the sum of its fields, and each branch of the decoder fixes every field
it accepts (spec/30_encoding.md R81, R83, R84, R87). -/

namespace Sys2Proof

/-! ## The fields make up the word (R81) -/

/-- With `RSV = 0` the other six fields hold every bit of the word. -/
theorem eq_sum_of_fields {cw : Word} (hrsv : rsvField cw = 0) :
    cw = BitVec.ofNat 32 (opField cw + 0x10 * saField cw + 0x100 * sbField cw + 0x1000 * dstField cw
      + 0x10000 * tField cw + 0x1000000 * idxField cw) := by
  apply BitVec.eq_of_toNat_eq
  simp only [opField, saField, sbField, dstField, tField, rsvField, idxField, bits, BitVec.toNat_ofNat] at hrsv ⊢
  omega

theorem tField_lt_two (cw : Word) : tField cw < 2 := Nat.mod_lt _ (by decide)

@[simp] theorem toNat_ofNat_idxField (cw : Word) : (BitVec.ofNat 8 (idxField cw)).toNat = idxField cw :=
  Nat.mod_eq_of_lt (Nat.mod_lt _ (by decide))

/-! ## A selector is known by its value (R83) -/

theorem VecSel.code_of_ofCode? {k : Nat} {v : VecSel} (h : VecSel.ofCode? k = some v) : v.code = k := by
  unfold VecSel.ofCode? at h
  split at h <;> cases h <;> rfl

theorem SrcSel.code_of_ofCode? {k : Nat} {v : SrcSel} (h : SrcSel.ofCode? k = some v) : v.code = k := by
  unfold SrcSel.ofCode? at h
  split at h <;> cases h <;> rfl

theorem DstSel.code_of_ofCode? {k : Nat} {v : DstSel} (h : DstSel.ofCode? k = some v) : v.code = k := by
  unfold DstSel.ofCode? at h
  split at h <;> cases h <;> rfl

/-! ## What each branch of the decoder accepts (R84) -/

theorem decodePlain_eq_some {cw : Word} {i j : Instr} (h : decodePlain cw i = some j) :
    j = i ∧ saField cw = 0 ∧ sbField cw = 0 ∧ dstField cw = 0 ∧ tField cw = 0 ∧ idxField cw = 0 := by
  unfold decodePlain at h
  split at h
  · next hz => exact ⟨(Option.some.inj h).symm, hz⟩
  · cases h

theorem decodeDot_eq_some {n : Nat} {cw : Word} {i : Instr} (h : decodeDot n cw = some i) :
    dstField cw = 0 ∧ tField cw = 0 ∧ i.wf n = true ∧ ∃ sa sb : VecSel,
      sa.code = saField cw ∧ sb.code = sbField cw ∧ i = .dot sa sb (BitVec.ofNat 8 (idxField cw)) := by
  unfold decodeDot at h
  split at h
  · next hz =>
    obtain ⟨hdst, ht⟩ := hz
    split at h
    · next sa sb hsa hsb =>
      split at h
      · next hwf =>
        cases h
        exact ⟨hdst, ht, hwf, sa, sb, VecSel.code_of_ofCode? hsa, VecSel.code_of_ofCode? hsb, rfl⟩
      · cases h
    · cases h
  · cases h

theorem decodeMatvec_eq_some {cw : Word} {i : Instr} (h : decodeMatvec cw = some i) :
    saField cw = 0 ∧ idxField cw = 0 ∧ ∃ (dst : DstSel) (sb : SrcSel),
      dst.code = dstField cw ∧ sb.code = sbField cw
        ∧ (tField cw = 0 ∧ i = .matvec dst sb ∨ tField cw = 1 ∧ i = .matvecT dst sb) := by
  unfold decodeMatvec at h
  split at h
  · next hz =>
    obtain ⟨hsa, hidx⟩ := hz
    split at h
    · next dst sb hdst hsb =>
      refine ⟨hsa, hidx, dst, sb, DstSel.code_of_ofCode? hdst, SrcSel.code_of_ofCode? hsb, ?_⟩
      split at h
      · next ht => exact .inl ⟨ht, (Option.some.inj h).symm⟩
      · next ht =>
        have hlt := tField_lt_two cw
        exact .inr ⟨by omega, (Option.some.inj h).symm⟩
    · cases h
  · cases h

/-- The `OP` value of a command that reads no other field (R82); none for DOT and MATVEC, which have operands. -/
def plainOp? : Instr → Option Nat
  | .modred => some 1
  | .keygen => some 4
  | .enc => some 5
  | .dec => some 6
  | .dot .. => none
  | .matvec .. => none
  | .matvecT .. => none

theorem encode_of_plainOp? {i : Instr} {op : Nat} (h : plainOp? i = some op) : encode i = BitVec.ofNat 32 op := by
  cases i <;> cases h <;> rfl

theorem wf_of_plainOp? {i : Instr} {op : Nat} (h : plainOp? i = some op) (n : Nat) : i.wf n = true := by
  cases i <;> cases h <;> rfl

/-- `OP` chooses one of the three branches (R82), and `RSV` must be 0 in each (R84). -/
theorem decode_cases {n : Nat} {cw : Word} {i : Instr} (h : decode n cw = some i) :
    rsvField cw = 0 ∧
      ((∃ j, plainOp? j = some (opField cw) ∧ decodePlain cw j = some i)
        ∨ (opField cw = 2 ∧ decodeDot n cw = some i)
        ∨ (opField cw = 3 ∧ decodeMatvec cw = some i)) := by
  unfold decode at h
  split at h
  · cases h
  · next hrsv =>
    refine ⟨not_not.mp hrsv, ?_⟩
    split at h
    · next hop => exact .inl ⟨.modred, by rw [hop]; rfl, h⟩
    · next hop => exact .inr (.inl ⟨hop, h⟩)
    · next hop => exact .inr (.inr ⟨hop, h⟩)
    · next hop => exact .inl ⟨.keygen, by rw [hop]; rfl, h⟩
    · next hop => exact .inl ⟨.enc, by rw [hop]; rfl, h⟩
    · next hop => exact .inl ⟨.dec, by rw [hop]; rfl, h⟩
    · cases h

/-! ## Encoding after decoding (R87) -/

theorem encode_of_decode {n : Nat} {cw : Word} {i : Instr} (h : decode n cw = some i) : encode i = cw := by
  obtain ⟨hrsv, hbranch⟩ := decode_cases h
  have hsum := eq_sum_of_fields hrsv
  obtain ⟨j, hop, hplain⟩ | ⟨hop, hdot⟩ | ⟨hop, hmv⟩ := hbranch
  · obtain ⟨rfl, hsa, hsb, hdst, ht, hidx⟩ := decodePlain_eq_some hplain
    simpa [encode_of_plainOp? hop, hsa, hsb, hdst, ht, hidx] using hsum.symm
  · obtain ⟨hdst, ht, -, sa, sb, hsa, hsb, rfl⟩ := decodeDot_eq_some hdot
    simpa only [encode, toNat_ofNat_idxField, hop, hsa, hsb, hdst, ht, Nat.mul_zero, Nat.add_zero] using hsum.symm
  · obtain ⟨hsa, hidx, dst, sb, hdst, hsb, ⟨ht, rfl⟩ | ⟨ht, rfl⟩⟩ := decodeMatvec_eq_some hmv
    · simpa only [encode, hop, hsa, hidx, hdst, hsb, ht, Nat.mul_zero, Nat.add_zero] using hsum.symm
    · rw [hsum, encode, hop, hsa, hidx, hdst, hsb, ht]
      congr 1
      omega

theorem wf_of_decode {n : Nat} {cw : Word} {i : Instr} (h : decode n cw = some i) : i.wf n = true := by
  obtain ⟨-, ⟨j, hop, hplain⟩ | ⟨-, hdot⟩ | ⟨-, hmv⟩⟩ := decode_cases h
  · obtain ⟨rfl, -⟩ := decodePlain_eq_some hplain
    exact wf_of_plainOp? hop n
  · obtain ⟨-, -, hwf, -⟩ := decodeDot_eq_some hdot
    exact hwf
  · obtain ⟨-, -, dst, sb, -, -, ⟨-, rfl⟩ | ⟨-, rfl⟩⟩ := decodeMatvec_eq_some hmv <;> rfl

/-- Settles O2: two words of one command are both its encoding (`encode_of_decode`), so they are equal. -/
theorem encodeOfDecodeIsTheWord : Obligations.EncodeOfDecodeIsTheWord := by
  intro n cw i h
  exact ⟨encode_of_decode h, wf_of_decode h, fun cw' h' => (encode_of_decode h').symm.trans (encode_of_decode h)⟩

end Sys2Proof
end

section
/-! PROOFS. What a draw is when the random source's answer to it is stated (spec/40_randomness_port.md R115). -/

namespace Sys2Proof.Machine

theorem drawBit_of_answer {s : State} {k : Nat} {b : BitVec 1} (h : s.env.answers[k]? = some (.bit b)) :
    drawBit s k = (b == 1#1) := by
  rw [drawBit, h]

theorem drawModq_of_answer {s : State} {k : Nat} {w : BitVec 16} (h : s.env.answers[k]? = some (.modq w)) :
    drawModq s k = w.toNat := by
  rw [drawModq, h]

theorem drawErr_of_answer {s : State} {k : Nat} {w : BitVec 2} (h : s.env.answers[k]? = some (.err w)) :
    drawErr s k = err3OfAnswer w := by
  rw [drawErr, h]

/-- A bit read as a truth value counts for its own number. -/
theorem ite_beq_one_eq_toNat (b : BitVec 1) : (if b == 1#1 then 1 else 0) = b.toNat := by
  obtain rfl | rfl := BitVec.eq_zero_or_eq_one b <;> rfl

/-- Settles O31: each kind of draw is its stated answer, and the codes of `err3OfAnswer` have the values R115 gives. -/
theorem portAnswersHaveTheirValues : Obligations.PortAnswersHaveTheirValues := by
  intro s k
  refine ⟨fun b hb => ?bit, fun w hw => drawModq_of_answer hw, fun hneg => ?neg, fun hzero => ?zero, fun hpos => ?pos⟩
  case bit => rw [drawBit_of_answer hb, ite_beq_one_eq_toNat]
  case neg => rw [drawErr_of_answer hneg]; rfl
  case zero => rw [drawErr_of_answer hzero]; rfl
  case pos => rw [drawErr_of_answer hpos]; rfl

end Sys2Proof.Machine
end

section
/-! PROOFS. What makes a value the reduction of a number: its range and the divisibility, and nothing else has both
(spec/41_modular_reduction.md R120). -/

namespace Sys2Proof.Machine

/-- Residues below `q` of one number are congruent, and congruent numbers below `q` are equal. -/
theorem eq_of_lt_of_dvd_sub {q a b : Nat} {x : Int} (ha : a < q) (hb : b < q)
    (hxa : (q : Int) ∣ x - a) (hxb : (q : Int) ∣ x - b) : a = b := by
  have hdiff : (q : Int) ∣ b - a := by simpa using dvd_sub hxa hxb
  exact (Nat.modEq_iff_dvd.2 hdiff).eq_of_lt_of_lt ha hb

theorem modq_eq_iff {q : Nat} (hq : 0 < q) (x : Int) (m : Nat) : modq q x = m ↔ m < q ∧ (q : Int) ∣ x - m := by
  constructor
  · rintro rfl
    exact ⟨modq_lt hq x, modq_dvd hq x⟩
  · rintro ⟨hm, hdvd⟩
    exact eq_of_lt_of_dvd_sub (modq_lt hq x) hm (modq_dvd hq x) hdvd

/-- Settles O6: `modq` has the range and the divisibility, and one value at most has both. -/
theorem modqIsTheTrueModulo : Obligations.ModqIsTheTrueModulo := by
  intro q m x hq
  exact modq_eq_iff (by omega) x m

end Sys2Proof.Machine
end

section
/-! PROOFS. What ENC stores, in terms of the `VR` it leaves: `VU` holds inner products with the columns of `MA`, `SV`
one with `VB` plus the encoded bit (spec/45_lwe_encrypt.md R160, R163). -/

namespace Sys2Proof.Machine

@[simp] theorem bitVal_cast (b : Bool) : ((bitVal b : Nat) : Int) = if b then 1 else 0 := by
  cases b <;> rfl

theorem encResults_vuAt (s : State) {j : Nat} (hj : j < s.cfg.n) :
    vuAt (encResults s) j = dot s.cfg.n s.cfg.q (fun i => maAt s i j) (vrAt (encResults s)) :=
  matvecT_getD _ _ _ _ hj

theorem encResults_sv (s : State) :
    (encResults s).sv = modq s.cfg.q
      (((Finset.range s.cfg.n).sum fun i => (vbAt s i : Int) * (vrAt (encResults s) i : Int))
        + ((s.cfg.q / 2 : Nat) : Int) * (if s.pbit then 1 else 0)) := by
  rw [← sumBelow_eq_sum, ← bitVal_cast]
  rfl

/-- Settles O21: the state after is `encResults` finished, and each element stored there is a reduction (`dot_lt`,
`dot_dvd`, `modq_lt`, `modq_dvd`). -/
theorem encResultsAreACiphertext : Obligations.EncResultsAreACiphertext := by
  intro s t h
  obtain ⟨-, rfl⟩ := execEnc_next h
  have hq := config_q_pos s.cfg
  refine ⟨rfl, rfl, rfl, drawBinaryVector_length .., matvecT_length .., modq_lt hq _, fun j hj => ?vu, ?sv⟩
  case vu =>
    change vuAt (encResults s) j < s.cfg.q ∧ (s.cfg.q : Int) ∣
      ((Finset.range s.cfg.n).sum fun i => (maAt s i j : Int) * (vrAt (encResults s) i : Int)) - vuAt (encResults s) j
    rw [encResults_vuAt s hj]
    exact ⟨dot_lt hq .., dot_dvd hq ..⟩
  case sv =>
    change (s.cfg.q : Int) ∣ _ - ((encResults s).sv : Int)
    rw [encResults_sv]
    exact modq_dvd hq _

end Sys2Proof.Machine
end

section
/-! PROOFS. The decision of DEC as an exact and strict test on integers (spec/46_lwe_decrypt.md R171). -/

namespace Sys2Proof.Machine

theorem decideBit_eq_zero_iff (q : Nat) (diff : Int) : decideBit q diff = 0 ↔ 4 * |diff| < q := by
  rw [decideBit, Int.abs_eq_natAbs]
  split <;> omega

theorem decideBit_eq_one_iff (q : Nat) (diff : Int) : decideBit q diff = 1 ↔ (q : Int) ≤ 4 * |diff| := by
  rw [decideBit, Int.abs_eq_natAbs]
  split <;> omega

/-- A multiple of 4 is no prime, so `|diff| = Q/4` cannot occur at a prime modulus. -/
theorem four_mul_abs_ne_prime {q : Nat} (hq : q.Prime) (diff : Int) : 4 * |diff| ≠ q := by
  intro h
  rw [Int.abs_eq_natAbs] at h
  obtain hone | rfl := hq.eq_one_or_self_of_dvd 4 ⟨diff.natAbs, by omega⟩
  · cases hone
  · exact absurd hq (by decide)

/-- Settles O24: the two answers of `decideBit` as inequalities over the integers; the borders are their instances. -/
theorem decisionThresholdValues : Obligations.DecisionThresholdValues := by
  intro diff
  refine ⟨fun q => ⟨decideBit_eq_zero_iff q diff, decideBit_eq_one_iff q diff⟩,
    fun q hq _ => four_mul_abs_ne_prime hq diff, ?_⟩
  simp only [decideBit_eq_zero_iff, decideBit_eq_one_iff]
  omega

end Sys2Proof.Machine
end

section
/-! PROOFS. The decryption identity: what KEYGEN, ENC and DEC leave, each as a congruence, and their composition along a
round trip (spec/46_lwe_decrypt.md R174). -/

namespace Sys2Proof.Machine

/-! ## Reduction as a congruence -/

theorem modq_modEq {q : Nat} (hq : 0 < q) (x : Int) : (modq q x : Int) ≡ x [ZMOD q] :=
  Int.modEq_iff_dvd.2 (modq_dvd hq x)

theorem dot_modEq {q : Nat} (hq : 0 < q) (n : Nat) (a b : Nat → Nat) :
    (dot n q a b : Int) ≡ (Finset.range n).sum fun k => (a k : Int) * (b k : Int) [ZMOD q] :=
  Int.modEq_iff_dvd.2 (dot_dvd hq n a b)

theorem modq_congr {q : Nat} {x y : Int} (h : x ≡ y [ZMOD q]) : modq q x = modq q y := congrArg Int.toNat h

/-- `modq` answers the number of `[0, Q)` that its operand reaches by a multiple of `Q`. -/
theorem modq_cast_eq_add_mul {q : Nat} {x k : Int} (hlo : 0 ≤ x + q * k) (hhi : x + q * k < q) :
    (modq q x : Int) = x + q * k := by
  rw [modq_cast (by omega), ← Int.add_mul_emod_self_left x q k, Int.emod_eq_of_lt hlo hhi]

theorem two_mul_half_le (q : Nat) : 2 * (half q : Int) ≤ q := by
  unfold half
  omega

/-! ## What each command leaves -/

theorem keygen_vbAt {s t : State} (h : exec .keygen s = .next t) {i : Nat} (hi : i < s.cfg.n) :
    vbAt t i = modq s.cfg.q
      (((Finset.range s.cfg.n).sum fun j => (maAt t i j : Int) * (vsAt t j : Int)) + errorDrawn s) := by
  obtain ⟨-, rfl⟩ := execKeygen_next h
  rw [← sumBelow_eq_sum]
  exact getD_map_range _ _ 0 hi

theorem enc_vuAt {s t : State} (h : exec .enc s = .next t) {j : Nat} (hj : j < s.cfg.n) :
    vuAt t j = dot s.cfg.n s.cfg.q (fun i => maAt s i j) (vrAt t) := by
  obtain ⟨-, rfl⟩ := execEnc_next h
  exact encResults_vuAt s hj

theorem enc_sv {s t : State} (h : exec .enc s = .next t) :
    t.sv = modq s.cfg.q (((Finset.range s.cfg.n).sum fun i => (vbAt s i : Int) * (vrAt t i : Int))
      + (half s.cfg.q : Int) * (if s.pbit then 1 else 0)) := by
  obtain ⟨-, rfl⟩ := execEnc_next h
  exact encResults_sv s

theorem enc_vr_length {s t : State} (h : exec .enc s = .next t) : t.vr.length = s.cfg.n := by
  obtain ⟨-, rfl⟩ := execEnc_next h
  exact drawBinaryVector_length ..

theorem dec_res {s t : State} (h : exec .dec s = .next t) : t.res = decideBit s.cfg.q (diffOf s) := by
  rw [execDec_next h]
  rfl

/-! ## The error draw and the ones of `r` -/

theorem errorDrawn_cases (s : State) : errorDrawn s = -1 ∨ errorDrawn s = 0 ∨ errorDrawn s = 1 := by
  unfold errorDrawn
  cases drawErr s (s.cfg.n + s.cfg.n * s.cfg.n) with
  | neg => exact .inl rfl
  | zero => exact .inr (.inl rfl)
  | pos => exact .inr (.inr rfl)

/-- `e*w`: what the error draw of the key from `s0` contributes to a ciphertext made with the `r` in `s3` (R174). -/
def noise (s0 s3 : State) : Int := errorDrawn s0 * onesIn s3.vr

/-- The noise is `-w`, 0 or `w`. -/
theorem noise_cases (s0 s3 : State) :
    (errorDrawn s0 = -1 ∧ noise s0 s3 = -onesIn s3.vr) ∨ (errorDrawn s0 = 0 ∧ noise s0 s3 = 0)
      ∨ (errorDrawn s0 = 1 ∧ noise s0 s3 = onesIn s3.vr) := by
  unfold noise
  obtain he | he | he := errorDrawn_cases s0 <;> simp [he]

theorem sum_bitVal_getD (r : List Bool) :
    ((Finset.range r.length).sum fun i => (bitVal (r.getD i false) : Int)) = onesIn r := by
  induction r with
  | nil => rfl
  | cons b r ih =>
    rw [List.length_cons, Finset.sum_range_succ', onesIn, List.count_cons]
    simp only [List.getD_cons_succ, List.getD_cons_zero, ih]
    cases b <;> simp [bitVal, onesIn]

/-! ## The two sums of R174 -/

/-- With `b = A s + e` in every row and `u = A^T r`, both modulo `q`, exchanging the two sums turns `b . r` into
`u . s` plus the error once per one of `r`. -/
theorem sum_mul_modEq_of_rows_of_columns {n : Nat} {q e : Int} {a : Nat → Nat → Int} {b r s u : Nat → Int}
    (hrow : ∀ i < n, b i ≡ ((Finset.range n).sum fun j => a i j * s j) + e [ZMOD q])
    (hcol : ∀ j < n, u j ≡ (Finset.range n).sum fun i => a i j * r i [ZMOD q]) :
    ((Finset.range n).sum fun i => b i * r i)
      ≡ ((Finset.range n).sum fun j => u j * s j) + e * (Finset.range n).sum r [ZMOD q] := by
  have hb : ((Finset.range n).sum fun i => b i * r i)
      ≡ (Finset.range n).sum fun i => (((Finset.range n).sum fun j => a i j * s j) + e) * r i [ZMOD q] :=
    Int.ModEq.sum fun i hi => (hrow i (Finset.mem_range.1 hi)).mul_right _
  have hu : ((Finset.range n).sum fun j => u j * s j)
      ≡ (Finset.range n).sum fun j => ((Finset.range n).sum fun i => a i j * r i) * s j [ZMOD q] :=
    Int.ModEq.sum fun j hj => (hcol j (Finset.mem_range.1 hj)).mul_right _
  have hswap : ((Finset.range n).sum fun i => (((Finset.range n).sum fun j => a i j * s j) + e) * r i)
      = ((Finset.range n).sum fun j => ((Finset.range n).sum fun i => a i j * r i) * s j)
        + e * (Finset.range n).sum r := by
    simp only [add_mul, Finset.sum_add_distrib, Finset.sum_mul, Finset.mul_sum]
    rw [Finset.sum_comm]
    simp only [mul_right_comm]
  exact (hswap ▸ hb).trans (hu.symm.add_right _)

/-! ## Along a round trip -/

section
variable {s0 s1 s2 s3 s4 s5 : State}

theorem RoundTrip.cfg_eq (h : RoundTrip s0 s1 s2 s3 s4 s5) : s2.cfg = s0.cfg ∧ s4.cfg = s0.cfg := by
  obtain ⟨h21, -⟩ := h.keyKept
  obtain ⟨h43, -⟩ := h.ciphertextKept
  obtain ⟨h10, -⟩ := exec_keeps h.keygen
  obtain ⟨h32, -⟩ := exec_keeps h.enc
  exact ⟨h21.trans h10, h43.trans (h32.trans (h21.trans h10))⟩

theorem RoundTrip.vbAt_modEq (h : RoundTrip s0 s1 s2 s3 s4 s5) {i : Nat} (hi : i < s0.cfg.n) :
    (vbAt s2 i : Int) ≡ ((Finset.range s0.cfg.n).sum fun j => (maAt s2 i j : Int) * (vsAt s4 j : Int))
      + errorDrawn s0 [ZMOD s0.cfg.q] := by
  obtain ⟨-, hma, hvb⟩ := h.keyKept
  obtain ⟨-, -, -, hvs⟩ := h.ciphertextKept
  have hrow := keygen_vbAt h.keygen hi
  simp only [vbAt, maAt, vsAt] at hrow
  simp only [vbAt, maAt, vsAt, hma, hvb, hvs, hrow]
  exact modq_modEq (config_q_pos s0.cfg) _

theorem RoundTrip.vuAt_modEq (h : RoundTrip s0 s1 s2 s3 s4 s5) {j : Nat} (hj : j < s0.cfg.n) :
    (vuAt s4 j : Int) ≡ (Finset.range s0.cfg.n).sum fun i => (maAt s2 i j : Int) * (vrAt s3 i : Int)
      [ZMOD s0.cfg.q] := by
  obtain ⟨hcfg, -⟩ := h.cfg_eq
  obtain ⟨-, hvu, -, -⟩ := h.ciphertextKept
  have hcol : vuAt s4 j = dot s0.cfg.n s0.cfg.q (fun i => maAt s2 i j) (vrAt s3) := by
    rw [vuAt, hvu, ← hcfg]
    exact enc_vuAt h.enc (hcfg ▸ hj)
  rw [hcol]
  exact dot_modEq (config_q_pos s0.cfg) ..

theorem RoundTrip.innerOf_eq (h : RoundTrip s0 s1 s2 s3 s4 s5) :
    innerOf s4 = dot s0.cfg.n s0.cfg.q (vuAt s4) (vsAt s4) := by
  rw [innerOf, h.cfg_eq.2]

theorem RoundTrip.innerOf_lt (h : RoundTrip s0 s1 s2 s3 s4 s5) : innerOf s4 < s0.cfg.q :=
  h.innerOf_eq ▸ dot_lt (config_q_pos s0.cfg) ..

theorem RoundTrip.sum_vrAt (h : RoundTrip s0 s1 s2 s3 s4 s5) :
    ((Finset.range s0.cfg.n).sum fun i => (vrAt s3 i : Int)) = onesIn s3.vr := by
  rw [← h.cfg_eq.1, ← enc_vr_length h.enc]
  exact sum_bitVal_getD s3.vr

theorem RoundTrip.onesIn_le (h : RoundTrip s0 s1 s2 s3 s4 s5) : onesIn s3.vr ≤ s0.cfg.n := by
  rw [← h.cfg_eq.1, ← enc_vr_length h.enc]
  exact List.count_le_length

theorem RoundTrip.sum_vbAt_modEq (h : RoundTrip s0 s1 s2 s3 s4 s5) :
    ((Finset.range s0.cfg.n).sum fun i => (vbAt s2 i : Int) * (vrAt s3 i : Int))
      ≡ (innerOf s4 : Int) + noise s0 s3 [ZMOD s0.cfg.q] := by
  have hinner : ((Finset.range s0.cfg.n).sum fun j => (vuAt s4 j : Int) * (vsAt s4 j : Int))
      ≡ (innerOf s4 : Int) [ZMOD s0.cfg.q] := by
    rw [h.innerOf_eq]
    exact (dot_modEq (config_q_pos s0.cfg) ..).symm
  rw [noise, ← h.sum_vrAt]
  exact (sum_mul_modEq_of_rows_of_columns (fun i hi => h.vbAt_modEq hi) (fun j hj => h.vuAt_modEq hj)).trans
    (hinner.add_right _)

/-- The number whose distance from `inner` DEC tests, before reduction: the noise and the encoded bit. -/
theorem RoundTrip.sv_eq (h : RoundTrip s0 s1 s2 s3 s4 s5) :
    s3.sv = modq s0.cfg.q ((innerOf s4 : Int) + noise s0 s3 + (half s0.cfg.q : Int) * (if s2.pbit then 1 else 0)) := by
  rw [enc_sv h.enc, h.cfg_eq.1]
  exact modq_congr (h.sum_vbAt_modEq.add_right _)

theorem RoundTrip.diffOf_eq (h : RoundTrip s0 s1 s2 s3 s4 s5) :
    diffOf s4 = (modq s0.cfg.q ((innerOf s4 : Int) + noise s0 s3
      + (half s0.cfg.q : Int) * (if s2.pbit then 1 else 0)) : Int) - (innerOf s4 : Int) := by
  obtain ⟨-, -, hsv, -⟩ := h.ciphertextKept
  rw [diffOf, hsv, h.sv_eq]

end

/-- Settles O26: the first two parts are `RoundTrip.sum_vbAt_modEq` and `RoundTrip.sv_eq`; the others follow from the
range of `inner` and of a reduced number. -/
theorem decryptionIdentity : Obligations.DecryptionIdentity := by
  intro s0 s1 s2 s3 s4 s5 h e w m halfQ
  have hq := config_q_pos s0.cfg
  have hinner := h.innerOf_lt
  have hsv := modq_lt hq ((innerOf s4 : Int) + e * w + halfQ * m)
  have hdiff : diffOf s4 = (modq s0.cfg.q ((innerOf s4 : Int) + e * w + halfQ * m) : Int) - innerOf s4 := h.diffOf_eq
  refine ⟨h.sum_vbAt_modEq.symm.dvd, congrArg Nat.cast h.sv_eq, hdiff, Int.ofNat_le.2 h.onesIn_le, ?congruent,
    by omega, by omega⟩
  case congruent =>
    have hcongr := (modq_modEq hq ((innerOf s4 : Int) + e * w + halfQ * m)).symm.dvd
    rw [hdiff, sub_sub, ← add_assoc]
    exact hcongr

end Sys2Proof.Machine
end

section
/-! PROOFS. When the decrypted bit is the encrypted one: `diff` is the noise and the encoded bit moved by the multiple
of `Q` that brings `SV` into range, and the threshold decides on its size (spec/46_lwe_decrypt.md R175). -/

namespace Sys2Proof.Machine

section
variable {s0 s1 s2 s3 s4 s5 : State}

theorem RoundTrip.res_eq_zero_iff (h : RoundTrip s0 s1 s2 s3 s4 s5) :
    s5.res = 0 ↔ 4 * |diffOf s4| < (s0.cfg.q : Int) := by
  rw [dec_res h.dec, h.cfg_eq.2, decideBit_eq_zero_iff]

theorem RoundTrip.res_eq_one_iff (h : RoundTrip s0 s1 s2 s3 s4 s5) :
    s5.res = 1 ↔ (s0.cfg.q : Int) ≤ 4 * |diffOf s4| := by
  rw [dec_res h.dec, h.cfg_eq.2, decideBit_eq_one_iff]

/-- `diff` is the noise and the encoded bit plus the `k`-fold of `Q` that takes their sum with `inner` into `[0, Q)`. -/
theorem RoundTrip.diffOf_eq_add_mul (h : RoundTrip s0 s1 s2 s3 s4 s5) {t : Int} (k : Int)
    (ht : t = noise s0 s3 + (half s0.cfg.q : Int) * (if s2.pbit then 1 else 0))
    (hlo : 0 ≤ (innerOf s4 : Int) + t + s0.cfg.q * k) (hhi : (innerOf s4 : Int) + t + s0.cfg.q * k < s0.cfg.q) :
    diffOf s4 = t + s0.cfg.q * k := by
  rw [h.diffOf_eq, add_assoc (innerOf s4 : Int), ← ht, modq_cast_eq_add_mul hlo hhi]
  ring

/-! ## The bit 0 -/

theorem RoundTrip.noWrap_of_zero (h : RoundTrip s0 s1 s2 s3 s4 s5) (hm : s2.pbit = false)
    (hN : 4 * (s0.cfg.n : Int) < s0.cfg.q) (hlo : 0 ≤ (innerOf s4 : Int) + noise s0 s3)
    (hhi : (innerOf s4 : Int) + noise s0 s3 < s0.cfg.q) :
    diffOf s4 = noise s0 s3 ∧ 4 * |diffOf s4| ≤ 4 * s0.cfg.n ∧ s5.res = 0 := by
  have hw := h.onesIn_le
  have hdiff : diffOf s4 = noise s0 s3 := by
    rw [h.diffOf_eq_add_mul (t := noise s0 s3) 0 (by simp [hm]) (by omega) (by omega), mul_zero, add_zero]
  have habs : |diffOf s4| ≤ s0.cfg.n := by
    rw [hdiff, abs_le]
    have hnoise := noise_cases s0 s3
    omega
  exact ⟨hdiff, by omega, h.res_eq_zero_iff.2 (by omega)⟩

theorem RoundTrip.wrap_of_zero (h : RoundTrip s0 s1 s2 s3 s4 s5) (hm : s2.pbit = false)
    (hN : 4 * (s0.cfg.n : Int) < s0.cfg.q)
    (hwrap : (innerOf s4 : Int) + noise s0 s3 < 0 ∨ (s0.cfg.q : Int) ≤ (innerOf s4 : Int) + noise s0 s3) :
    errorDrawn s0 ≠ 0 ∧ 1 ≤ (onesIn s3.vr : Int) ∧ |diffOf s4| = s0.cfg.q - onesIn s3.vr
      ∧ (s0.cfg.q : Int) ≤ 4 * (s0.cfg.q - onesIn s3.vr) ∧ s5.res = 1 := by
  have hw := h.onesIn_le
  have hinner := h.innerOf_lt
  have hdiff (k : Int) := h.diffOf_eq_add_mul k (t := noise s0 s3) (by simp [hm])
  have habs : |diffOf s4| = s0.cfg.q - onesIn s3.vr := by
    obtain ⟨-, hnoise⟩ | ⟨-, hnoise⟩ | ⟨-, hnoise⟩ := noise_cases s0 s3
    · rw [hdiff 1 (by omega) (by omega), abs_of_nonneg (by omega)]
      omega
    · omega
    · rw [hdiff (-1) (by omega) (by omega), abs_of_nonpos (by omega)]
      omega
  have hnoise := noise_cases s0 s3
  exact ⟨by omega, by omega, habs, by omega, h.res_eq_one_iff.2 (by omega)⟩

theorem RoundTrip.noWrap_iff (h : RoundTrip s0 s1 s2 s3 s4 s5) :
    (0 ≤ (innerOf s4 : Int) + noise s0 s3 ∧ (innerOf s4 : Int) + noise s0 s3 < s0.cfg.q)
      ↔ errorDrawn s0 = 0 ∨ (errorDrawn s0 = 1 ∧ (innerOf s4 : Int) < s0.cfg.q - onesIn s3.vr)
        ∨ (errorDrawn s0 = -1 ∧ (onesIn s3.vr : Int) ≤ innerOf s4) := by
  have hinner := h.innerOf_lt
  have hnoise := noise_cases s0 s3
  omega

theorem RoundTrip.res_eq_zero_iff_noWrap (h : RoundTrip s0 s1 s2 s3 s4 s5) (hm : s2.pbit = false)
    (hN : 4 * (s0.cfg.n : Int) < s0.cfg.q) :
    s5.res = 0 ↔ 0 ≤ (innerOf s4 : Int) + noise s0 s3 ∧ (innerOf s4 : Int) + noise s0 s3 < s0.cfg.q := by
  constructor
  · intro hres
    by_contra hwrap
    obtain ⟨-, -, -, -, hone⟩ := h.wrap_of_zero hm hN (by omega)
    omega
  · rintro ⟨hlo, hhi⟩
    exact (h.noWrap_of_zero hm hN hlo hhi).2.2

/-! ## The bit 1 -/

theorem RoundTrip.diffOf_of_one (h : RoundTrip s0 s1 s2 s3 s4 s5) (hm : s2.pbit = true)
    (hN : (s0.cfg.q : Int) ≤ 4 * ((half s0.cfg.q : Int) - s0.cfg.n)) :
    diffOf s4 = noise s0 s3 + (half s0.cfg.q : Int) ∨ diffOf s4 = noise s0 s3 + (half s0.cfg.q : Int) - s0.cfg.q := by
  have hw := h.onesIn_le
  have hinner := h.innerOf_lt
  have hnoise := noise_cases s0 s3
  have hhalf := two_mul_half_le s0.cfg.q
  have hdiff (k : Int) := h.diffOf_eq_add_mul k (t := noise s0 s3 + (half s0.cfg.q : Int)) (by simp [hm])
  by_cases hhi : (innerOf s4 : Int) + (noise s0 s3 + (half s0.cfg.q : Int)) < s0.cfg.q
  · left
    rw [hdiff 0 (by omega) (by omega)]
    omega
  · right
    rw [hdiff (-1) (by omega) (by omega)]
    omega

theorem RoundTrip.le_abs_diffOf_of_one (h : RoundTrip s0 s1 s2 s3 s4 s5) (hm : s2.pbit = true)
    (hN : (s0.cfg.q : Int) ≤ 4 * ((half s0.cfg.q : Int) - s0.cfg.n)) :
    (half s0.cfg.q : Int) - s0.cfg.n ≤ |diffOf s4| := by
  have hw := h.onesIn_le
  have hnoise := noise_cases s0 s3
  have hhalf := two_mul_half_le s0.cfg.q
  rw [le_abs]
  obtain hdiff | hdiff := h.diffOf_of_one hm hN
  · left
    omega
  · right
    omega

end

/-- Settles O27: for the bit 0, the decision turns on whether the noise wraps; for the bit 1, both values of `diff`
are at least `HALF - N` in size. -/
theorem decryptedBitIsRightExactlyWhen : Obligations.DecryptedBitIsRightExactlyWhen := by
  intro s0 s1 s2 s3 s4 s5 h e w inner q halfQ
  refine ⟨fun hm hN => ?zero, fun hm hN => ?one⟩
  case zero =>
    exact ⟨fun ⟨hlo, hhi⟩ => h.noWrap_of_zero hm hN hlo hhi, h.wrap_of_zero hm hN,
      (h.res_eq_zero_iff_noWrap hm hN).trans h.noWrap_iff⟩
  case one =>
    have habs := h.le_abs_diffOf_of_one hm hN
    exact ⟨h.diffOf_of_one hm hN, habs, h.res_eq_one_iff.2 (hN.trans (mul_le_mul_of_nonneg_left habs (by decide)))⟩

end Sys2Proof.Machine
end

section
/-! PROOFS. Recording an error and clearing the record, and the order of a host write's tests: `ERR` first, then the
busy phase, then the location (spec/20_memory.md R53, spec/60_exceptions.md R196 to R199). -/

namespace Sys2Proof.Machine

/-! ## Recording (R197) -/

theorem raiseError_of_errNone {s : State} (h : s.err = .errNone) (e : ErrCode) (info : Word) :
    raiseError s e info = { s with err := e, errinfo := info } := if_pos h

theorem raiseError_of_err_ne {s : State} (h : s.err ≠ .errNone) (e : ErrCode) (info : Word) :
    raiseError s e info = s := if_neg h

/-- Settles O44: the two cases of the recording rule. -/
theorem firstErrorWins : Obligations.FirstErrorWins := by
  intro s e info
  exact ⟨fun hnone => raiseError_of_errNone hnone e info, fun hsome => raiseError_of_err_ne hsome e info⟩

/-! ## The order of the tests (R53) -/

theorem hostWrite_of_err {a : HostAddr} (ha : locate a = .err) (s : State) (v : Word) :
    hostWrite s a v = clearError s := if_pos ha

theorem hostWrite_of_busy {s : State} {a : HostAddr} (hphase : s.phase = .busy) (ha : locate a ≠ .err) (v : Word) :
    hostWrite s a v = raiseError s .errBusy (addrInfo a) := by
  rw [hostWrite, if_neg ha, if_pos hphase]

theorem hostWrite_of_idle {s : State} {a : HostAddr} (hphase : s.phase = .idle) (ha : locate a ≠ .err) (v : Word) :
    hostWrite s a v = hostWriteIdle s a v := by
  have hnotBusy : s.phase ≠ .busy := by simp [hphase]
  rw [hostWrite, if_neg ha, if_neg hnotBusy]

/-- Settles O43: the busy test comes before any look at the location or the value. -/
theorem writeWhileBusyIsRejected : Obligations.WriteWhileBusyIsRejected := by
  intro s a v hphase ha
  exact hostWrite_of_busy hphase ha v

/-! ## Clearing (R199) -/

/-- Of what a write elsewhere can do, latching and storing leave the record alone, and recording finds one there. -/
theorem hostWrite_keeps_recorded_error {s : State} {a : HostAddr} (ha : locate a ≠ .err) (herr : s.err ≠ .errNone)
    (v : Word) : (hostWrite s a v).err = s.err ∧ (hostWrite s a v).errinfo = s.errinfo := by
  obtain ⟨hclear, -⟩ | ⟨-, -, -, hlatch⟩ | ⟨-, -, -, hillegal⟩ | ⟨-, -, hstore⟩ | ⟨e, -, hreject⟩ :=
    hostWrite_cases s a v
  · exact absurd hclear ha
  · rw [hlatch]; exact ⟨rfl, rfl⟩
  · rw [hillegal, raiseError_of_err_ne herr]; exact ⟨rfl, rfl⟩
  · rw [hstore]; exact ⟨storedAt_err s _ v, storedAt_errinfo s _ v⟩
  · rw [hreject, raiseError_of_err_ne herr]; exact ⟨rfl, rfl⟩

/-- Settles O45: the `ERR` test comes first in either phase, and no other write touches a recorded error. -/
theorem writeToErrClearsIt : Obligations.WriteToErrClearsIt := by
  intro s a v
  exact ⟨fun ha => hostWrite_of_err ha s v, fun ha herr => hostWrite_keeps_recorded_error ha herr v⟩

end Sys2Proof.Machine
end

section
/-! PROOFS. What an idle write rejects: an illegal command word, a word outside the location's domain, and any address
that no write can set (spec/60_exceptions.md R192 to R195). -/

namespace Sys2Proof.Machine

theorem hostWriteIdle_cmd {a : HostAddr} (ha : locate a = .cmd) (s : State) (v : Word) :
    hostWriteIdle s a v = writeCommand s v := by
  simp only [hostWriteIdle, ha]

theorem writeCommand_of_illegal {s : State} {v : Word} (h : legal s.cfg.n v = false) :
    writeCommand s v = raiseError s .errOpcode v := by
  simp [writeCommand, h]

/-- Settles O42: the `CMD` arm of an idle write, on a word that is not legal. -/
theorem illegalCommandIsRejected : Obligations.IllegalCommandIsRejected := by
  intro s a v hphase ha hillegal
  rw [hostWrite_of_idle hphase (by simp [ha]), hostWriteIdle_cmd ha, writeCommand_of_illegal hillegal]

/-! ## A word outside the location's domain (R192, R193) -/

theorem writeBit_of_one_lt {v : Word} (hv : 1 < v.toNat) (s : State) (a : HostAddr) (store : Bool → State) :
    writeBit s a v store = raiseError s .errNotBit (addrInfo a) := if_pos hv

theorem writeZq_of_le {s : State} {v : Word} (hv : s.cfg.q ≤ v.toNat) (a : HostAddr) (store : Nat → State) :
    writeZq s a v store = raiseError s .errRange (addrInfo a) := if_pos hv

@[simp] theorem writeIfIndexed_true (s : State) (a : HostAddr) (write : State) :
    writeIfIndexed s a true write = write := rfl

@[simp] theorem writeIfIndexed_false (s : State) (a : HostAddr) (write : State) :
    writeIfIndexed s a false write = raiseError s .errAddr (addrInfo a) := rfl

/-- Settles O39: each binary location that exists looks at the word by `writeBit`. -/
theorem nonBitWriteIsRejected : Obligations.NonBitWriteIsRejected := by
  intro s a v hphase hloc hv
  have hreject (store : Bool → State) := writeBit_of_one_lt hv s a store
  have herr : locate a ≠ .err := by
    intro h
    simp [h] at hloc
  rw [hostWrite_of_idle hphase herr, hostWriteIdle]
  obtain hpbit | ⟨k, hk, hvs | hvr⟩ := hloc
  · simp only [hpbit, hreject, addrInfo]
  · simp only [hvs, hk, decide_true, writeIfIndexed_true, hreject, addrInfo]
  · simp only [hvr, hk, decide_true, writeIfIndexed_true, hreject, addrInfo]

/-- Settles O40: each mod-Q location that exists looks at the word by `writeZq`. -/
theorem outOfRangeWriteIsRejected : Obligations.OutOfRangeWriteIsRejected := by
  intro s a v hphase hloc hv
  have hreject (store : Nat → State) := writeZq_of_le hv a store
  have herr : locate a ≠ .err := by
    intro h
    simp [h] at hloc
  rw [hostWrite_of_idle hphase herr, hostWriteIdle]
  obtain hsv | ⟨k, hk, hvb | hvu⟩ | ⟨i, hi, j, hj, hma⟩ := hloc
  · simp only [hsv, hreject, addrInfo]
  · simp only [hvb, hk, decide_true, writeIfIndexed_true, hreject, addrInfo]
  · simp only [hvu, hk, decide_true, writeIfIndexed_true, hreject, addrInfo]
  · simp only [hma, hi, hj, decide_true, Bool.and_true, writeIfIndexed_true, hreject, addrInfo]

/-! ## An address that no write can set (R194) -/

theorem hostRead_of_idle {s : State} (hphase : s.phase = .idle) (a : HostAddr) : hostRead s a = definedWord s a := by
  simp [hostRead, readIsUnspecified, hphase]

/-- The index test comes before any look at the value, and a location without an index to test is read-only. -/
theorem hostWriteIdle_of_not_writable {s : State} {a : HostAddr} (hcmd : locate a ≠ .cmd)
    (hw : isWritableOperand s.cfg.n (locate a) = false) (v : Word) :
    hostWriteIdle s a v = raiseError s .errAddr (addrInfo a) := by
  unfold hostWriteIdle
  cases hloc : locate a with
  | cmd => exact absurd hloc hcmd
  | xin | pbit | sv => simp [hloc, isWritableOperand] at hw
  | vb k | vu k | vs k | vr k =>
    have hk : decide (k < s.cfg.n) = false := by simpa [hloc, isWritableOperand] using hw
    simp only [hk, writeIfIndexed_false]
  | ma i j =>
    have hij : (decide (i < s.cfg.n) && decide (j < s.cfg.n)) = false := by
      simpa [hloc, isWritableOperand] using hw
    simp only [hij, writeIfIndexed_false]
  | cfgN | cfgQ | status | err | errinfo | res | unmapped => rfl

/-- No element stands where the index is `N` or more, so such a location reads 0 (R55). -/
theorem operandWord_of_not_writable {s : State} {l : Loc} (hres : l ≠ .res)
    (hw : isWritableOperand s.cfg.n l = false) : operandWord s l = 0#32 := by
  cases l with
  | res => exact absurd rfl hres
  | xin | pbit | sv => simp [isWritableOperand] at hw
  | vb k | vu k | vs k | vr k => exact if_neg (of_decide_eq_false hw)
  | ma i j => exact if_neg (of_decide_eq_false hw)
  | cfgN | cfgQ | status | err | errinfo | cmd | unmapped => rfl

/-- The word at an address that no write can set: the register's own, and 0 where there is no register. -/
theorem definedWord_of_not_writable {s : State} {a : HostAddr} (herr : locate a ≠ .err)
    (hw : isWritableOperand s.cfg.n (locate a) = false) :
    definedWord s a = (if locate a = .cfgN then BitVec.ofNat 32 s.cfg.n
        else if locate a = .cfgQ then BitVec.ofNat 32 s.cfg.q
        else if locate a = .status then statusWord s
        else if locate a = .errinfo then s.errinfo
        else if locate a = .res then BitVec.ofNat 32 s.res
        else 0#32) := by
  have hzero : locate a ≠ .res → operandWord s (locate a) = 0#32 := (operandWord_of_not_writable · hw)
  unfold definedWord
  cases hloc : locate a with
  | err => exact absurd hloc herr
  | cfgN | cfgQ | status | errinfo | cmd | res => simp [operandWord]
  | xin | pbit | sv | vb _ | vu _ | vs _ | vr _ | ma _ _ | unmapped => simpa [hloc] using hzero

/-- Settles O41: the write falls to `ERR_ADDR` in every arm left, and the idle read is the defined word. -/
theorem writeToNoLocationIsRejected : Obligations.WriteToNoLocationIsRejected := by
  intro s a v hphase herr hcmd hw
  constructor
  · rw [hostWrite_of_idle hphase herr]
    exact hostWriteIdle_of_not_writable hcmd hw v
  · rw [hostRead_of_idle hphase]
    exact definedWord_of_not_writable herr hw

end Sys2Proof.Machine
end

section
/-! PROOFS. Every command completes: only a broken port contract or operands that no legal word encodes stop one
(spec/20_memory.md R64, spec/60_exceptions.md R203). -/

namespace Sys2Proof.Machine

theorem execDot_of_wf {s : State} {sa sb : VecSel} {idx : BitVec 8} (h : (Instr.dot sa sb idx).wf s.cfg.n = true) :
    execDot sa sb idx s = .next (finish { s with res := dot s.cfg.n s.cfg.q (vec s sa idx) (vec s sb idx) }) :=
  if_pos h

/-- A command that does not draw completes by its definition, DOT once its operands are well-formed; KEYGEN and ENC
complete because the contract is kept. -/
theorem exec_completes {i : Instr} {s : State} (hwf : i.wf s.cfg.n = true) (hsource : s.SourceKeepsContract i) :
    ∃ t, exec i s = .next t := by
  cases i with
  | modred | matvec dst sb | matvecT dst sb | dec => exact ⟨_, rfl⟩
  | dot sa sb idx => exact ⟨_, execDot_of_wf hwf⟩
  | keygen | enc => exact ⟨_, completeWithDraws_of_contract hsource⟩

/-- Settles O28: the command completes, and a completed command keeps the record and leaves the block idle. -/
theorem everyCommandCompletesWithoutError : Obligations.EveryCommandCompletesWithoutError := by
  intro i s hwf hsource
  obtain ⟨t, ht⟩ := exec_completes hwf hsource
  obtain ⟨hcfg, herr, herrinfo, -, -, hphase, hcmdl⟩ := exec_keeps ht
  exact ⟨t, ht, herr, herrinfo, hphase, hcmdl, hcfg⟩

end Sys2Proof.Machine
end

section
/-! PROOFS. The encoder against the decoder and against `Legal`, and the assembler against the disassembler
(spec/30_encoding.md R83, R84, R86 to R88). -/

namespace Sys2Proof

/-! ## A selector's value names it (R83) -/

@[simp] theorem VecSel.ofCode?_code (v : VecSel) : VecSel.ofCode? v.code = some v := by cases v <;> rfl

theorem VecSel.exists_code_eq {k : Nat} (hk : k ≤ 5) : ∃ v : VecSel, v.code = k := by
  have all : ∀ k ≤ 5, (VecSel.ofCode? k).isSome = true := by decide
  obtain ⟨v, hv⟩ := Option.isSome_iff_exists.1 (all k hk)
  exact ⟨v, VecSel.code_of_ofCode? hv⟩

theorem SrcSel.ofCode?_isSome {k : Nat} (hk : k ≤ 3) : (SrcSel.ofCode? k).isSome = true := by
  have all : ∀ k ≤ 3, (SrcSel.ofCode? k).isSome = true := by decide
  exact all k hk

theorem DstSel.ofCode?_isSome {k : Nat} (hk : k ≤ 1) : (DstSel.ofCode? k).isSome = true := by
  have all : ∀ k ≤ 1, (DstSel.ofCode? k).isSome = true := by decide
  exact all k hk

/-! ## Decoding after encoding (R87) -/

open Laws.EncodeWellFormed in
/-- DOT is read back field by field. -/
theorem decode_encode_dot {n : Nat} {sa sb : VecSel} {idx : BitVec 8} (h : (Instr.dot sa sb idx).wf n = true) :
    decode n (encode (.dot sa sb idx)) = some (.dot sa sb idx) := by
  obtain ⟨hop, hsa, hsb, hdst, ht, hrsv, hidx⟩ := dot_fields sa sb idx
  have hindex : BitVec.ofNat 8 (idxField (encode (.dot sa sb idx))) = idx := by
    rw [hidx, BitVec.ofNat_toNat, BitVec.setWidth_eq]
  simp [decode, decodeDot, hop, hsa, hsb, hdst, ht, hrsv, hindex, h]

/-- Settles O1: DOT by its fields; every other command has finitely many words, each of which computes. -/
theorem decodeOfEncodeIsTheCommand : Obligations.DecodeOfEncodeIsTheCommand := by
  intro n i h
  cases i with
  | dot sa sb idx => exact decode_encode_dot h
  | matvec dst sb => cases dst <;> cases sb <;> rfl
  | matvecT dst sb => cases dst <;> cases sb <;> rfl
  | modred | keygen | enc | dec => rfl

/-- Settles O4: the decoder computes on each of the words. -/
theorem sampleWordsDecode : Obligations.SampleWordsDecode := by
  unfold Obligations.SampleWordsDecode
  decide

/-! ## Legal words (R84, R86) -/

open Laws.EncodeWellFormed in
theorem legal_encode {n : Nat} {i : Instr} (h : i.wf n = true) : legal n (encode i) = true := by
  cases i with
  | modred => exact modred n h
  | dot sa sb idx => exact dot sa sb idx n h
  | matvec dst sb => exact matvec dst sb n h
  | matvecT dst sb => exact matvecT dst sb n h
  | keygen => exact keygen n h
  | enc => exact enc n h
  | dec => exact dec n h

theorem legal_of_decode {n : Nat} {cw : Word} {i : Instr} (h : decode n cw = some i) : legal n cw = true := by
  rw [← encode_of_decode h]
  exact legal_encode (wf_of_decode h)

open Laws.EncodeWellFormed in
/-- The limits `Legal` puts on a DOT word's index are those of `Instr.wf` on the operands it names. -/
theorem exists_decodeDot {n : Nat} {cw : Word} (hdst : dstField cw = 0) (ht : tField cw = 0)
    (hsa : saField cw ≤ 5) (hsb : sbField cw ≤ 5)
    (hidx : if saField cw ≥ 4 ∨ sbField cw ≥ 4 then idxField cw < n else idxField cw = 0) :
    ∃ i, decodeDot n cw = some i := by
  obtain ⟨sa, ha⟩ := VecSel.exists_code_eq hsa
  obtain ⟨sb, hb⟩ := VecSel.exists_code_eq hsb
  have hwf : (Instr.dot sa sb (BitVec.ofNat 8 (idxField cw))).wf n = true := by
    simp only [Instr.wf, Bool.or_eq_true, usesMatrix_iff, ha, hb, toNat_ofNat_idxField]
    split at hidx
    · next hm => rw [if_pos hm]; exact decide_eq_true hidx
    · next hm => rw [if_neg hm, hidx]; rfl
  exact ⟨.dot sa sb (BitVec.ofNat 8 (idxField cw)), by simp [decodeDot, hdst, ht, ← ha, ← hb, hwf]⟩

theorem exists_decodeMatvec {cw : Word} (hsa : saField cw = 0) (hidx : idxField cw = 0) (hsb : sbField cw ≤ 3)
    (hdst : dstField cw ≤ 1) : ∃ i, decodeMatvec cw = some i := by
  obtain ⟨dst, hd⟩ := Option.isSome_iff_exists.1 (DstSel.ofCode?_isSome hdst)
  obtain ⟨sb, hs⟩ := Option.isSome_iff_exists.1 (SrcSel.ofCode?_isSome hsb)
  by_cases ht : tField cw = 0
  · exact ⟨.matvec dst sb, by simp [decodeMatvec, hsa, hidx, hd, hs, ht]⟩
  · exact ⟨.matvecT dst sb, by simp [decodeMatvec, hsa, hidx, hd, hs, ht]⟩

theorem exists_decodePlain {cw : Word} (i : Instr)
    (h : saField cw = 0 ∧ sbField cw = 0 ∧ dstField cw = 0 ∧ tField cw = 0 ∧ idxField cw = 0) :
    ∃ j, decodePlain cw i = some j := ⟨i, if_pos h⟩

theorem exists_decode_of_legal {n : Nat} {cw : Word} (h : legal n cw = true) : ∃ i, decode n cw = some i := by
  unfold legal at h
  unfold decode
  split at h
  · cases h
  · next hrsv =>
    rw [if_neg hrsv]
    split at h
    · next hop => rw [hop]; exact exists_decodePlain _ (of_decide_eq_true h)
    · next hop => rw [hop]; exact exists_decodePlain _ (of_decide_eq_true h)
    · next hop => rw [hop]; exact exists_decodePlain _ (of_decide_eq_true h)
    · next hop => rw [hop]; exact exists_decodePlain _ (of_decide_eq_true h)
    · next hop =>
      simp only [ite_eq_iff, Bool.false_eq_true, and_false, false_or, not_or, not_not, not_lt, decide_eq_true_eq] at h
      obtain ⟨⟨hdst, ht⟩, ⟨hsa, hsb⟩, hidx⟩ := h
      rw [hop]
      exact exists_decodeDot hdst ht hsa hsb (by split <;> omega)
    · next hop =>
      obtain ⟨hsa, hidx, hsb, hdst⟩ := of_decide_eq_true h
      rw [hop]
      exact exists_decodeMatvec hsa hidx hsb hdst
    · cases h

/-- Settles O3: a legal word decodes in the branch its `OP` picks, and a decoded word is the encoding of a well-formed
command, which is legal. -/
theorem legalExactlyWhenDecoded : Obligations.LegalExactlyWhenDecoded := by
  intro n cw
  exact ⟨exists_decode_of_legal, fun ⟨_, hi⟩ => legal_of_decode hi⟩

/-! ## The assembler line of a command (R88) -/

open Machine

@[simp] theorem operandOf_sel (sel : VecSel) (idx : BitVec 8) : (operandOf sel idx).sel = sel := by cases sel <;> rfl

theorem operandOf_index? (sel : VecSel) (idx : BitVec 8) :
    (operandOf sel idx).index? = if sel.usesMatrix then some idx.toNat else none := by cases sel <;> rfl

/-- Two operands made with one index have it as their shared index; where neither takes one, well-formedness makes it
the 0 that the line stands for. -/
theorem sharedIndex_operandOf {n : Nat} {sa sb : VecSel} {idx : BitVec 8} (h : (Instr.dot sa sb idx).wf n = true) :
    sharedIndex (operandOf sa idx).index? (operandOf sb idx).index? = some idx.toNat := by
  rw [operandOf_index?, operandOf_index?]
  cases ha : sa.usesMatrix <;> cases hb : sb.usesMatrix
  case false.false =>
    obtain rfl : idx = 0#8 := by simpa [Instr.wf, ha, hb] using h
    rfl
  all_goals simp [sharedIndex]

/-- Settles O5: DOT by its shared index; every other line has no index to lose. -/
theorem disassembledLineAssembles : Obligations.DisassembledLineAssembles := by
  intro n i h
  cases i with
  | dot sa sb idx => simp [disassemble, assemble, assembleDot, sharedIndex_operandOf h, idx.isLt]
  | modred | matvec | matvecT | keygen | enc | dec => rfl

end Sys2Proof
end

section
/-! PROOFS. The reduction in three stages, a reduction per term, and the range of every sum
(spec/41_modular_reduction.md R121, R123, spec/00_scope.md R8). -/

namespace Sys2Proof.Machine

/-! ## The three stages (R121) -/

theorem rem_modEq (q : Nat) (x : Int) : rem q x ≡ x [ZMOD q] :=
  Int.modEq_iff_dvd.2 ⟨x.tdiv q, by have := Int.tmod_add_mul_tdiv x q; unfold rem; omega⟩

theorem abs_rem_lt {q : Nat} (hq : 0 < q) (x : Int) : -(q : Int) < rem q x ∧ rem q x < q := by
  have hlt := Int.tmod_lt_of_pos x (b := (q : Int)) (by omega)
  have hgt := Int.lt_tmod_of_pos x (b := (q : Int)) (by omega)
  exact ⟨hgt, hlt⟩

/-- Once the dividend is not negative, the remainder is the true modulo. -/
theorem rem_eq_modq_of_nonneg {q : Nat} (hq : 0 < q) {x : Int} (hx : 0 ≤ x) : rem q x = modq q x := by
  rw [rem, modq_cast hq, Int.tmod_eq_emod_of_nonneg hx]

/-- Settles O7: the second stage is positive and congruent to `x`, so its remainder is the true modulo of `x`. -/
theorem pipelineStagesGiveModq : Obligations.PipelineStagesGiveModq := by
  intro q x hq
  obtain ⟨hlo, hhi⟩ := abs_rem_lt (by omega : 0 < q) x
  have hcongr : rem q x + q ≡ x [ZMOD q] := Int.add_modEq_right.trans (rem_modEq q x)
  refine ⟨⟨hlo, hhi⟩, by omega, ?_⟩
  rw [modqStages, rem_eq_modq_of_nonneg (by omega) (by omega), modq_congr hcongr]

/-! ## A reduction per term (R123) -/

/-- Settles O8: each reduced term is congruent to its term, so the sums are congruent. -/
theorem reducingPerTermIsNotObservable : Obligations.ReducingPerTermIsNotObservable := by
  intro n q f hq
  rw [sumBelow_eq_sum, sumBelow_eq_sum]
  exact modq_congr (Int.ModEq.sum fun k _ => modq_modEq (by omega) (f k))

/-! ## The range of a sum (R8) -/

/-- A sum of `m` products of elements below `q` is at most `m` times the largest product. -/
theorem sum_mul_bounds {q m : Nat} {a b : Nat → Nat} (ha : ∀ k < m, a k < q) (hb : ∀ k < m, b k < q) :
    0 ≤ ((Finset.range m).sum fun k => (a k : Int) * (b k : Int))
      ∧ ((Finset.range m).sum fun k => (a k : Int) * (b k : Int)) ≤ ((m * (q - 1) * (q - 1) : Nat) : Int) := by
  have hterm : ∀ k ∈ Finset.range m, a k * b k ≤ (q - 1) * (q - 1) := fun k hk =>
    have hk := Finset.mem_range.1 hk
    Nat.mul_le_mul (Nat.le_sub_one_of_lt (ha k hk)) (Nat.le_sub_one_of_lt (hb k hk))
  have hsum := Finset.sum_le_card_nsmul _ _ _ hterm
  rw [Finset.card_range, smul_eq_mul, ← Nat.mul_assoc] at hsum
  exact ⟨by positivity, by exact_mod_cast hsum⟩

/-- Settles O9: the largest sum of `N` products is within the configuration's limit, and a part of it is no larger. -/
theorem sumsStayInThirtyTwoBits : Obligations.SumsStayInThirtyTwoBits := by
  intro c a b m extra hm ha hb hlo hhi
  obtain ⟨-, -, -, -, hlimit⟩ := config_bounds c
  obtain ⟨hnonneg, hle⟩ := sum_mul_bounds (m := m) (fun k hk => ha k (by omega)) (fun k hk => hb k (by omega))
  have hmono : m * (c.q - 1) * (c.q - 1) ≤ c.n * (c.q - 1) * (c.q - 1) := by gcongr
  omega

end Sys2Proof.Machine
end

section
/-! PROOFS. What MODRED, DOT, MATVEC, MATVEC.T and DEC store, and that they change nothing else
(spec/41_modular_reduction.md R122, spec/42_inner_product.md R131, spec/43_matrix_vector.md R141,
spec/46_lwe_decrypt.md R170). -/

namespace Sys2Proof.Machine

/-- Settles O10: `RES` is `modq` of the signed word. -/
theorem modredReducesXin : Obligations.ModredReducesXin := by
  intro s
  have hq := config_q_pos s.cfg
  exact ⟨modq s.cfg.q (xinValue s), rfl, modq_lt hq _, modq_dvd hq _⟩

/-! ## DOT -/

theorem dot_comm (n q : Nat) (a b : Nat → Nat) : dot n q a b = dot n q b a := by
  simp only [dot, mul_comm]

theorem wf_dot_comm (n : Nat) (sa sb : VecSel) (idx : BitVec 8) :
    (Instr.dot sa sb idx).wf n = (Instr.dot sb sa idx).wf n := by
  simp only [Instr.wf, Bool.or_comm]

theorem execDot_comm (s : State) (sa sb : VecSel) (idx : BitVec 8) : execDot sb sa idx s = execDot sa sb idx s := by
  rw [execDot, execDot, wf_dot_comm, dot_comm]

/-- Settles O11: `RES` is `dot` of the two vectors, and `dot` and the test of the operands are symmetric. -/
theorem dotWritesReducedInnerProduct : Obligations.DotWritesReducedInnerProduct := by
  intro s sa sb idx hwf
  have hq := config_q_pos s.cfg
  exact ⟨_, execDot_of_wf hwf, dot_lt hq .., dot_dvd hq .., execDot_comm s sa sb idx⟩

/-- Settles O12: each selector reads its list, and `bitVal` is the number of a bit. -/
theorem selectorsNameTheirVectors : Obligations.SelectorsNameTheirVectors := by
  intro s idx k
  exact ⟨rfl, rfl, rfl, rfl, rfl, rfl, rfl, rfl, rfl, rfl⟩

/-- Settles O13: DOT tests its operands first. -/
theorem illFormedDotIsRefused : Obligations.IllFormedDotIsRefused := by
  intro s sa sb idx hwf
  exact if_neg (by simp [hwf])

/-! ## MATVEC and MATVEC.T -/

theorem finish_setDst (s : State) (dst : DstSel) (y : List Nat) :
    finish (setDst s dst y) = { s with
      vb := (if dst = .vb then y else s.vb), vu := (if dst = .vu then y else s.vu), phase := .idle, cmdl := none } := by
  cases dst <;> rfl

/-- Settles O14: element `i` of the destination is `dot` of row `i` and the operand as it was. -/
theorem matvecWritesRowProducts : Obligations.MatvecWritesRowProducts := by
  intro s dst sb
  have hq := config_q_pos s.cfg
  refine ⟨matvec s.cfg.n s.cfg.q (maAt s) (srcVec s sb), congrArg _ (finish_setDst ..), matvec_length .., ?_⟩
  intro i hi
  rw [matvec_getD _ _ _ _ hi]
  exact ⟨dot_lt hq .., dot_dvd hq ..⟩

/-- Settles O15: element `j` of the destination is `dot` of column `j` and the operand as it was. -/
theorem matvecTWritesColumnProducts : Obligations.MatvecTWritesColumnProducts := by
  intro s dst sb
  have hq := config_q_pos s.cfg
  refine ⟨matvecT s.cfg.n s.cfg.q (maAt s) (srcVec s sb), congrArg _ (finish_setDst ..), matvecT_length .., ?_⟩
  intro j hj
  rw [matvecT_getD _ _ _ _ hj]
  exact ⟨dot_lt hq .., dot_dvd hq ..⟩

/-! ## DEC -/

theorem decideBit_eq_ite (q : Nat) (diff : Int) : decideBit q diff = if 4 * |diff| < q then 0 else 1 := by
  split
  · next h => exact (decideBit_eq_zero_iff q diff).2 h
  · next h => exact (decideBit_eq_one_iff q diff).2 (not_lt.1 h)

/-- Settles O23: `inner` is `dot` of `VU` and `VS`, and the decision is the test on `4*|diff|`. -/
theorem decDecidesByExactStrictThreshold : Obligations.DecDecidesByExactStrictThreshold := by
  intro s
  have hq := config_q_pos s.cfg
  refine ⟨innerOf s, dot_lt hq .., dot_dvd hq .., ?_⟩
  rw [← decideBit_eq_ite]
  rfl

end Sys2Proof.Machine
end

section
/-! PROOFS. The draws of KEYGEN and ENC and what the two commands make of them (spec/40_randomness_port.md R111, R113,
R116, spec/44_lwe_keygen.md R150 to R153, spec/45_lwe_encrypt.md R160). -/

namespace Sys2Proof.Machine

/-! ## The port -/

/-- Settles O30: the requests listed, counted. -/
theorem drawsPerCommand : Obligations.DrawsPerCommand := by
  intro n
  exact ⟨drawKinds_keygen_length n, drawKinds_enc_length n, rfl, rfl, fun _ _ _ => rfl, fun _ _ => ⟨rfl, rfl⟩⟩

theorem keygen_drawModq_lt {s : State} (h : s.SourceKeepsContract .keygen) {k : Nat} (hk : k < s.cfg.n * s.cfg.n) :
    drawModq s (s.cfg.n + k) < s.cfg.q :=
  drawModq_lt s _ fun _ ha => contractKept_at h (drawKinds_keygen_modq hk) ha

/-- Settles O32: the requests after the key's are of kind `MODQ`, and an answer that fits one is below `Q`. -/
theorem modqDrawsAreInDomain : Obligations.ModqDrawsAreInDomain := fun _ h _ hk => keygen_drawModq_lt h hk

/-- Settles O33: the contract is the one test both commands make. -/
theorem brokenContractIsRefused : Obligations.BrokenContractIsRefused := by
  intro s
  exact ⟨fun h => if_neg h, fun h => if_neg h⟩

/-! ## Element by element -/

theorem index_lt_mul_self {n i j : Nat} (hi : i < n) (hj : j < n) : n * i + j < n * n := by
  have : n * (i + 1) ≤ n * n := Nat.mul_le_mul_left n hi
  rw [Nat.mul_succ] at this
  omega

theorem drawBinaryVector_zero (s : State) (n : Nat) :
    drawBinaryVector s 0 n = (List.range n).map fun k => drawBit s k := by
  simp only [drawBinaryVector, Nat.zero_add]

theorem keygenResults_maAt (s : State) {i j : Nat} (hi : i < s.cfg.n) (hj : j < s.cfg.n) :
    maAt (keygenResults s) i j = drawModq s (s.cfg.n + s.cfg.n * i + j) := drawMatrix_getD s s.cfg.n s.cfg.n hi hj

theorem keygenResults_vsAt (s : State) {j : Nat} (hj : j < s.cfg.n) :
    vsAt (keygenResults s) j = bitVal (drawBit s j) := by
  rw [vsAt, show (keygenResults s).vs = drawBinaryVector s 0 s.cfg.n from rfl, drawBinaryVector_getD s 0 _ hj,
    Nat.zero_add]

theorem encResults_vrAt (s : State) {i : Nat} (hi : i < s.cfg.n) :
    vrAt (encResults s) i = bitVal (drawBit s i) := by
  rw [vrAt, show (encResults s).vr = drawBinaryVector s 0 s.cfg.n from rfl, drawBinaryVector_getD s 0 _ hi,
    Nat.zero_add]

/-! ## KEYGEN -/

theorem execKeygen_of_contract {s : State} (h : s.SourceKeepsContract .keygen) :
    exec .keygen s = .next (finish (consumeDraws (keygenResults s) (s.cfg.n + s.cfg.n * s.cfg.n + 1))) := by
  rw [← drawKinds_keygen_length]
  exact completeWithDraws_of_contract h

/-- Settles O16: the stored lists are the draws, and `keygen_vbAt` is the row sum over them. -/
theorem keygenStoresDrawnKey : Obligations.KeygenStoresDrawnKey := by
  intro s hsource
  have hq := config_q_pos s.cfg
  have hexec := execKeygen_of_contract hsource
  refine ⟨(keygenResults s).vb, ?_, publicVector_length .., fun i hi => ?_⟩
  · rw [hexec, ← drawBinaryVector_zero]
    rfl
  · have hvb : (keygenResults s).vb.getD i 0 = _ := keygen_vbAt hexec hi
    have hsum : ((Finset.range s.cfg.n).sum fun j =>
          (drawModq s (s.cfg.n + s.cfg.n * i + j) : Int) * (if drawBit s j then 1 else 0))
        = (Finset.range s.cfg.n).sum fun j =>
          (maAt (keygenResults s) i j : Int) * (vsAt (keygenResults s) j : Int) := by
      refine Finset.sum_congr rfl fun j hj => ?_
      have hj := Finset.mem_range.1 hj
      rw [keygenResults_maAt s hi hj, keygenResults_vsAt s hj, bitVal_cast]
    rw [hsum, hvb]
    exact ⟨modq_lt hq _, modq_dvd hq _⟩

/-- Settles O17: the matrix is draws below `Q`, and the error drawn explains every row by `keygen_vbAt`. -/
theorem keygenResultsAreAKeyPair : Obligations.KeygenResultsAreAKeyPair := by
  intro s t h
  have hq := config_q_pos s.cfg
  have hvb {i : Nat} (hi : i < s.cfg.n) := keygen_vbAt h hi
  obtain ⟨hsource, rfl⟩ := execKeygen_next h
  refine ⟨drawBinaryVector_length .., drawMatrix_length .., publicVector_length .., fun i hi j hj => ?_,
    fun i hi => ?_, errorDrawn s, errorDrawn_cases s, fun i hi => ?_⟩
  · change maAt (keygenResults s) i j < s.cfg.q
    rw [keygenResults_maAt s hi hj, Nat.add_assoc]
    exact keygen_drawModq_lt hsource (index_lt_mul_self hi hj)
  · rw [hvb hi]
    exact modq_lt hq _
  · rw [hvb hi]
    exact modq_dvd hq _

/-- Settles O18: the meaning names none of the three. -/
theorem keygenReadsNoOldKey : Obligations.KeygenReadsNoOldKey := fun _ _ _ _ => rfl

/-- The draws are those of the answers and the counter. -/
theorem draws_congr {s s' : State} (hcfg : s'.cfg = s.cfg) (hans : s'.env.answers = s.env.answers)
    (hcount : s'.env.drawCount = s.env.drawCount) :
    drawBit s' = drawBit s ∧ drawModq s' = drawModq s ∧ drawErr s' = drawErr s := by
  refine ⟨funext fun k => ?_, funext fun k => ?_, funext fun k => ?_⟩
  · rw [drawBit, drawBit, hans, hcount]
  · rw [drawModq, drawModq, hans, hcount, hcfg]
  · rw [drawErr, drawErr, hans, hcount]

/-- Settles O19: what KEYGEN stores is built of its draws and the configuration alone. -/
theorem equalDrawsGiveEqualKeys : Obligations.EqualDrawsGiveEqualKeys := by
  intro s s' t t' hcfg hans hcount h h'
  obtain ⟨hbit, hmodq, herr⟩ := draws_congr hcfg hans hcount
  obtain ⟨-, rfl⟩ := execKeygen_next h
  obtain ⟨-, rfl⟩ := execKeygen_next h'
  simp only [finish_vs, finish_ma, finish_vb, consumeDraws_vs, consumeDraws_ma, consumeDraws_vb, keygenResults,
    drawBinaryVector, drawMatrix, hcfg, hbit, hmodq, herr, and_self]

/-- With no error a row of the public vector is the inner product with the key. -/
theorem publicVector_zero (n q : Nat) (m : List (List Nat)) (key : List Bool) :
    publicVector n q m key 0
      = matvec n q (fun i j => (m.getD i []).getD j 0) (fun j => bitVal (key.getD j false)) := by
  simp only [publicVector, matvec, dot, add_zero]

/-- Settles O25: MATVEC computes the list that KEYGEN stored, and the block is idle already. -/
theorem matvecRecomputesErrorFreeKey : Obligations.MatvecRecomputesErrorFreeKey := by
  intro s t hzero h
  obtain ⟨-, rfl⟩ := execKeygen_next h
  have hvb : (keygenResults s).vb
      = matvec s.cfg.n s.cfg.q (maAt (keygenResults s)) (vsAt (keygenResults s)) := by
    rw [show (keygenResults s).vb = publicVector s.cfg.n s.cfg.q _ _ (errorDrawn s) from rfl, hzero]
    exact publicVector_zero ..
  have hstored : setDst (keygenResults s) .vb
      (matvec s.cfg.n s.cfg.q (maAt (keygenResults s)) (vsAt (keygenResults s))) = keygenResults s := by
    rw [← hvb]
    rfl
  exact congrArg (fun u => Host.Outcome.next (finish (consumeDraws u _))) hstored

/-! ## ENC -/

theorem execEnc_of_contract {s : State} (h : s.SourceKeepsContract .enc) :
    exec .enc s = .next (finish (consumeDraws (encResults s) s.cfg.n)) := by
  have hexec : exec .enc s = _ := completeWithDraws_of_contract h
  rwa [drawKinds_enc_length] at hexec

/-- Settles O20: `VR` is the draws, and `VU` and `SV` are the reductions over them. -/
theorem encStoresCiphertext : Obligations.EncStoresCiphertext := by
  intro s hsource
  have hq := config_q_pos s.cfg
  have hbit {i : Nat} (hi : i ∈ Finset.range s.cfg.n) :
      (vrAt (encResults s) i : Int) = if drawBit s i then 1 else 0 := by
    rw [encResults_vrAt s (Finset.mem_range.1 hi), bitVal_cast]
  have hsum (f : Nat → Nat) : ((Finset.range s.cfg.n).sum fun i => (f i : Int) * (if drawBit s i then 1 else 0))
      = (Finset.range s.cfg.n).sum fun i => (f i : Int) * (vrAt (encResults s) i : Int) :=
    Finset.sum_congr rfl fun i hi => by rw [hbit hi]
  have hhalf : (if s.pbit then ((s.cfg.q / 2 : Nat) : Int) else 0)
      = ((s.cfg.q / 2 : Nat) : Int) * (if s.pbit then 1 else 0) := by
    simp only [mul_ite, mul_one, mul_zero]
  refine ⟨(encResults s).vu, (encResults s).sv, ?_, matvecT_length .., modq_lt hq _, fun j hj => ?_, ?_⟩
  · rw [← drawBinaryVector_zero, execEnc_of_contract hsource]
    rfl
  · rw [hsum, show (encResults s).vu.getD j 0 = _ from encResults_vuAt s hj]
    exact ⟨dot_lt hq .., dot_dvd hq ..⟩
  · rw [hsum, hhalf, encResults_sv]
    exact modq_dvd hq _

/-- Settles O22: the meaning names none of the three. -/
theorem encReadsNoOldCiphertext : Obligations.EncReadsNoOldCiphertext := fun _ _ _ _ => rfl

end Sys2Proof.Machine
end

section
/-! PROOFS. The address map, and what a read finds at each location (spec/10_state.md R24, R25, spec/20_memory.md R51,
R52, R54, R55, R59). -/

namespace Sys2Proof.Machine

/-! ## The address map (R51, R55) -/

/-- The element windows of the vectors: one page each, in the order of the selectors. -/
theorem locate_element (v : SrcSel) {k : Nat} (hk : k < 256) :
    locate (BitVec.ofNat 17 (0x100 * (v.code + 1) + k)) = elementLoc v k := by
  have hcode : v.code ≤ 3 := by cases v <;> decide
  have hpage : (0x100 * (v.code + 1) + k) / 256 = v.code + 1 := by omega
  have hindex : (0x100 * (v.code + 1) + k) % 256 = k := by omega
  rw [locate, BitVec.toNat_ofNat, Nat.mod_eq_of_lt (by omega), if_neg (by omega), hpage, hindex]
  cases v <;> rfl

theorem locate_matrix {i j : Nat} (hi : i < 256) (hj : j < 256) :
    locate (BitVec.ofNat 17 (0x10000 + 256 * i + j)) = .ma i j := by
  rw [locate, BitVec.toNat_ofNat, Nat.mod_eq_of_lt (by omega), if_pos (by omega)]
  congr 1 <;> omega

theorem locateRegister_of_ten_le {z : Nat} (h : 10 ≤ z) : locateRegister z = .unmapped := by
  unfold locateRegister
  split
  case h_11 => rfl
  all_goals omega

/-- Below the windows an address is a register's or none; a page above them has none. -/
theorem locate_unmapped {a : HostAddr}
    (h : 0x0000A ≤ a.toNat ∧ a.toNat ≤ 0x000FF ∨ 0x00500 ≤ a.toNat ∧ a.toNat ≤ 0x0FFFF) : locate a = .unmapped := by
  rw [locate, if_neg (by omega)]
  split
  case h_1 => exact locateRegister_of_ten_le (by omega)
  case h_6 => rfl
  all_goals omega

theorem elementLoc_addr (v : SrcSel) (k : Nat) :
    (elementLoc v k).addr = if k < 256 then BitVec.ofNat 17 (0x100 * (v.code + 1) + k) else 0x0000A#17 := by
  cases v <;> rfl

theorem ma_addr (i j : Nat) :
    (Loc.ma i j).addr = if i < 256 ∧ j < 256 then BitVec.ofNat 17 (0x10000 + 256 * i + j) else 0x0000A#17 := by
  rw [ite_and]
  rfl

/-- Settles O34: the registers compute, and each window is located by its page and index. -/
theorem addressMap : Obligations.AddressMap := by
  refine ⟨by decide, fun a => locate_unmapped, fun k hk => ?_, fun i hi j hj => locate_matrix hi hj, fun v k => ?_,
    fun i j => ?_⟩
  · exact ⟨locate_element .vb hk, locate_element .vu hk, locate_element .vs hk, locate_element .vr hk⟩
  · rw [elementLoc_addr]
    split
    · next hk => exact locate_element v hk
    · rfl
  · rw [ma_addr]
    split
    · next hij => exact locate_matrix hij.1 hij.2
    · rfl

/-! ## Reads (R52, R59) -/

theorem hostRead_of_normal {a : HostAddr} (ha : readsNormallyWhileBusy (locate a) = true) (s : State) :
    hostRead s a = definedWord s a := by
  simp [hostRead, readIsUnspecified, ha]

theorem hostRead_of_open {s : State} {a : HostAddr} (hphase : s.phase = .busy)
    (ha : readsNormallyWhileBusy (locate a) = false) : hostRead s a = Config.freeReadWord s.env.freeReads := by
  simp [hostRead, readIsUnspecified, hphase, ha]

theorem definedWord_status {a : HostAddr} (ha : locate a = .status) (s : State) : definedWord s a = statusWord s := by
  rw [definedWord, ha]

/-- A location that is open while busy is one of the operand storage, or none. -/
theorem definedWord_operand {a : HostAddr} (ha : readsNormallyWhileBusy (locate a) = false) (s : State) :
    definedWord s a = operandWord s (locate a) := by
  unfold definedWord
  cases hl : locate a with
  | cfgN | cfgQ | status | err | errinfo | cmd => simp [hl, readsNormallyWhileBusy] at ha
  | xin | res | pbit | sv | vb | vu | vs | vr | ma | unmapped => rfl

/-! ## `STATUS` bit by bit (R24) -/

theorem busyFlag_iff (s : State) : busyFlag s = true ↔ s.phase = .busy := beq_iff_eq

theorem errFlag_iff (s : State) : errFlag s = true ↔ s.err ≠ .errNone := bne_iff_ne

theorem statusWord_bit_zero (s : State) : (statusWord s).getLsbD 0 = busyFlag s := by
  unfold statusWord
  cases busyFlag s <;> cases errFlag s <;> rfl

theorem statusWord_bit_one (s : State) : (statusWord s).getLsbD 1 = errFlag s := by
  unfold statusWord
  cases busyFlag s <;> cases errFlag s <;> rfl

theorem statusWord_toNat_lt (s : State) : (statusWord s).toNat < 2 ^ 2 := by
  unfold statusWord
  cases busyFlag s <;> cases errFlag s <;> decide

/-- Settles O35: `STATUS` reads normally in either phase, and its word is below 4. -/
theorem statusShowsPhaseAndError : Obligations.StatusShowsPhaseAndError := by
  intro s a ha
  rw [hostRead_of_normal (by rw [ha]; rfl), definedWord_status ha, statusWord_bit_zero, statusWord_bit_one]
  refine ⟨busyFlag_iff s, errFlag_iff s, fun j hj => ?_⟩
  exact Nat.testBit_lt_two_pow ((statusWord_toNat_lt s).trans_le (Nat.pow_le_pow_right (by decide) hj))

/-! ## Every location (R25, R52, R54, R55) -/

theorem ofNat_bitVal (b : Bool) : BitVec.ofNat 32 (bitVal b) = if b then 1#32 else 0#32 := by cases b <;> rfl

/-- Settles O36: the six addresses that read normally, the free word, and each operand location in the idle phase. -/
theorem hostReadReturnsTheLocation : Obligations.HostReadReturnsTheLocation := by
  intro s a
  have normal {l : Loc} (ha : locate a = l) (hl : readsNormallyWhileBusy l = true) : hostRead s a = definedWord s a :=
    hostRead_of_normal (ha ▸ hl) s
  refine ⟨fun ha => ?_, fun ha => ?_, fun ha => ?_, fun ha => ?_, fun ha => ?_, fun ha => ?_, hostRead_of_open,
    fun hphase => ?_⟩
  · rw [normal ha rfl, definedWord, ha]
  · rw [normal ha rfl, definedWord, ha]
  · rw [normal ha rfl, definedWord_status ha]
    simp only [statusWord, busyFlag_iff, errFlag_iff]
  · rw [normal ha rfl, definedWord, ha]
    refine ⟨?_, ?_, ?_, ?_, ?_, ?_⟩ <;> intro he <;> simp only [he, ErrCode.code]
  · rw [normal ha rfl, definedWord, ha]
  · rw [normal ha rfl, definedWord, ha]
  · rw [hostRead_of_idle hphase]
    have operand {l : Loc} (ha : locate a = l) (hl : readsNormallyWhileBusy l = false) :
        definedWord s a = operandWord s l := ha ▸ definedWord_operand (ha ▸ hl) s
    refine ⟨(operand · rfl), (operand · rfl), fun ha => ?_, (operand · rfl), fun k ha => operand ha rfl,
      fun k ha => operand ha rfl, fun k ha => ?_, fun k ha => ?_, fun i j ha => operand ha rfl, (operand · rfl)⟩
    · rw [operand ha rfl, operandWord, ofNat_bitVal]
    · rw [operand ha rfl, operandWord, vsAt, ofNat_bitVal, ite_and]
    · rw [operand ha rfl, operandWord, vrAt, ofNat_bitVal, ite_and]

end Sys2Proof.Machine
end

section
/-! PROOFS. The frame of a command and what an idle write that is not rejected does (spec/20_memory.md R53, R54, R58,
spec/60_exceptions.md R190, R197, spec/70_reset_and_hazards.md R226). -/

namespace Sys2Proof.Machine

/-! ## Words that stand -/

theorem statusWord_congr {s t : State} (hphase : t.phase = s.phase) (herr : t.err = s.err) :
    statusWord t = statusWord s := by
  have hbusy : busyFlag t = busyFlag s := by rw [busyFlag, busyFlag, hphase]
  have herrf : errFlag t = errFlag s := by rw [errFlag, errFlag, herr]
  rw [statusWord, statusWord, hbusy, herrf]

/-- Of the block a read looks at the configuration, the record, the phase in `STATUS`, and one location. -/
theorem definedWord_congr {s t : State} {a : HostAddr} (hcfg : t.cfg = s.cfg) (herr : t.err = s.err)
    (hinfo : t.errinfo = s.errinfo) (hstatus : locate a = .status → statusWord t = statusWord s)
    (hword : operandWord t (locate a) = operandWord s (locate a)) : definedWord t a = definedWord s a := by
  unfold definedWord
  cases hl : locate a with
  | status => exact hstatus hl
  | cfgN | cfgQ => simp only [hcfg]
  | err => simp only [herr]
  | errinfo => exact hinfo
  | cmd => rfl
  | xin | res | pbit | sv | vb | vu | vs | vr | ma | unmapped => rw [hl] at hword; exact hword

theorem operandWord_storeRes (s : State) (r : Nat) {l : Loc} (hl : l ≠ .res) :
    operandWord (finish { s with res := r }) l = operandWord s l := by
  cases l with
  | res => exact absurd rfl hl
  | _ => rfl

theorem operandWord_storeDst (s : State) {dst : DstSel} (y : List Nat) {l : Loc} (hl : isDstLoc dst l = false) :
    operandWord (finish (setDst s dst y)) l = operandWord s l := by
  cases dst with
  | vb =>
    cases l with
    | vb => cases hl
    | _ => rfl
  | vu =>
    cases l with
    | vu => cases hl
    | _ => rfl

/-- A command leaves the word of every location outside its row of R226's table. -/
theorem operandWord_exec {i : Instr} {s t : State} (h : exec i s = .next t) {l : Loc} (hl : overwrites i l = false) :
    operandWord t l = operandWord s l := by
  cases i with
  | modred => rw [execModred_next h]; exact operandWord_storeRes s _ (beq_eq_false_iff_ne.1 hl)
  | dot sa sb idx => rw [(execDot_next h).2]; exact operandWord_storeRes s _ (beq_eq_false_iff_ne.1 hl)
  | dec => rw [execDec_next h]; exact operandWord_storeRes s _ (beq_eq_false_iff_ne.1 hl)
  | matvec dst sb => rw [execMatvec_next h]; exact operandWord_storeDst s _ hl
  | matvecT dst sb => rw [execMatvecT_next h]; exact operandWord_storeDst s _ hl
  | keygen =>
    rw [(execKeygen_next h).2]
    cases l with
    | vs | ma | vb => cases hl
    | _ => rfl
  | enc =>
    rw [(execEnc_next h).2]
    cases l with
    | vr | vu | sv => cases hl
    | _ => rfl

/-- Settles O29: what every completed command keeps, and the locations outside its row. -/
theorem commandsOverwriteOnlyTheirTable : Obligations.CommandsOverwriteOnlyTheirTable := by
  intro i s t h a hstatus hl
  obtain ⟨hcfg, herr, hinfo, -⟩ := exec_keeps h
  exact definedWord_congr hcfg herr hinfo (absurd · hstatus) (operandWord_exec h hl)

/-! ## An accepted write (R53 step 4) -/

theorem storable_of_accepts {s : State} {l : Loc} {v : Word} (hw : isWritableOperand s.cfg.n l = true)
    (hv : accepts s.cfg.q l v) : storable s l v := by
  cases l with
  | xin => trivial
  | pbit | sv => exact hv
  | vb | vu | vs | vr | ma => exact ⟨of_decide_eq_true hw, hv⟩
  | cfgN | cfgQ | status | err | errinfo | cmd | res | unmapped => exact hv.elim

theorem writeBit_of_le {v : Word} (hv : v.toNat ≤ 1) (s : State) (a : HostAddr) (store : Bool → State) :
    writeBit s a v store = store (v.toNat == 1) := if_neg (not_lt.2 hv)

theorem writeZq_of_lt {s : State} {v : Word} (hv : v.toNat < s.cfg.q) (a : HostAddr) (store : Nat → State) :
    writeZq s a v store = store v.toNat := if_neg (not_le.2 hv)

theorem hostWriteIdle_of_storable {s : State} {a : HostAddr} {v : Word} (h : storable s (locate a) v) :
    hostWriteIdle s a v = storedAt s (locate a) v := by
  unfold hostWriteIdle
  cases hl : locate a with
  | xin => rfl
  | pbit => rw [hl] at h; exact writeBit_of_le h ..
  | sv => rw [hl] at h; exact writeZq_of_lt h ..
  | vb k | vu k =>
    rw [hl] at h
    obtain ⟨hk, hv⟩ := h
    simp only [hk, decide_true, writeIfIndexed_true, writeZq_of_lt hv, storedAt]
  | vs k | vr k =>
    rw [hl] at h
    obtain ⟨hk, hv⟩ := h
    simp only [hk, decide_true, writeIfIndexed_true, writeBit_of_le hv, storedAt]
  | ma i j =>
    rw [hl] at h
    obtain ⟨⟨hi, hj⟩, hv⟩ := h
    simp only [hi, hj, decide_true, Bool.and_true, writeIfIndexed_true, writeZq_of_lt hv, storedAt]
  | cfgN | cfgQ | status | err | errinfo | cmd | res | unmapped => rw [hl] at h; exact h.elim

/-- A word of 0 or 1 is the word of the bit it is stored as. -/
theorem ofNat_bitVal_of_le {v : Word} (hv : v.toNat ≤ 1) : BitVec.ofNat 32 (bitVal (v.toNat == 1)) = v := by
  apply BitVec.eq_of_toNat_eq
  obtain h | h : v.toNat = 0 ∨ v.toNat = 1 := by omega
  · rw [h]; rfl
  · rw [h]; rfl

theorem ofNat_toNat_word (v : Word) : BitVec.ofNat 32 v.toNat = v := by
  rw [BitVec.ofNat_toNat, BitVec.setWidth_eq]

/-- The law of a store at its own location. -/
theorem operandWord_storedAt_self {s : State} (h : s.StorageOk) {l : Loc} {v : Word} (hv : storable s l v) :
    operandWord (storedAt s l v) l = v := by
  have hrow {i : Nat} (hi : i < s.cfg.n) := (storageOk_row h hi).1
  obtain ⟨⟨hvb, hvu, hvs, hvr, hma, -⟩, -⟩ := h
  cases l with
  | xin => rfl
  | pbit => exact ofNat_bitVal_of_le hv
  | sv => exact ofNat_toNat_word v
  | vb k | vu k =>
    obtain ⟨hk, -⟩ := hv
    simp [operandWord, storedAt, vbAt, vuAt, hk, hvb, hvu]
  | vs k | vr k =>
    obtain ⟨hk, hv⟩ := hv
    simp [operandWord, storedAt, vsAt, vrAt, hk, hvs, hvr, ofNat_bitVal_of_le hv]
  | ma i j =>
    obtain ⟨⟨hi, hj⟩, -⟩ := hv
    have hlen := hrow hi
    rw [List.getD_eq_getElem _ _ (by omega)] at hlen
    simp [operandWord, storedAt, maAt, hi, hj, hma, hlen]
  | cfgN | cfgQ | status | err | errinfo | cmd | res | unmapped => exact hv.elim

theorem readsNormally_of_storable {s : State} {l : Loc} {v : Word} (h : storable s l v) :
    readsNormallyWhileBusy l = false := by
  cases l with
  | cfgN | cfgQ | status | err | errinfo | cmd => exact h.elim
  | xin | res | pbit | sv | vb | vu | vs | vr | ma | unmapped => rfl

/-- Settles O37: the write is a store at one location, which no other address has. -/
theorem acceptedWriteReadsBack : Obligations.AcceptedWriteReadsBack := by
  intro s a v hinv hphase hw hv
  have hstorable := storable_of_accepts hw hv
  have hopen := readsNormally_of_storable hstorable
  have hne {l : Loc} (hl : locate a = l) : storable s l v := hl ▸ hstorable
  have herr : locate a ≠ .err := hne
  have hmapped : locate a ≠ .unmapped := hne
  have hwrite : hostWrite s a v = storedAt s (locate a) v := by
    rw [hostWrite_of_idle hphase herr, hostWriteIdle_of_storable hstorable]
  rw [hwrite]
  refine ⟨?_, fun a' ha' => ?_, by simp [hphase], by simp⟩
  · rw [definedWord_operand hopen, operandWord_storedAt_self hinv.1 hstorable]
  · have hloc : locate a' ≠ locate a := fun h => ha' (locate_injective h.symm hmapped).symm
    refine definedWord_congr (by simp) (by simp) (by simp) (fun _ => ?_) (operandWord_storedAt v hloc)
    exact statusWord_congr (by simp) (by simp)

/-! ## Latching and recording -/

/-- Settles O38: the `CMD` arm of an idle write, on a word that is legal. -/
theorem legalCommandIsLatched : Obligations.LegalCommandIsLatched := by
  intro s a v hphase ha hlegal
  rw [hostWrite_of_idle hphase (by simp [ha]), hostWriteIdle_cmd ha, writeCommand, if_pos hlegal]

/-- A recording that changes `ERR` found it empty, and sets the record alone. -/
theorem raiseError_precise {s : State} {e : ErrCode} {info : Word} (h : (raiseError s e info).err ≠ s.err) :
    s.err = .errNone ∧ raiseError s e info
      = { s with err := (raiseError s e info).err, errinfo := (raiseError s e info).errinfo } := by
  by_cases hnone : s.err = .errNone
  · rw [raiseError_of_errNone hnone]
    exact ⟨hnone, rfl⟩
  · rw [raiseError_of_err_ne hnone] at h
    exact absurd rfl h

/-- Settles O46: of what a write elsewhere can do only a recording changes `ERR`. -/
theorem errorsArePrecise : Obligations.ErrorsArePrecise := by
  intro s a v ha hchanged
  obtain ⟨hclear, hw⟩ | ⟨-, -, -, hw⟩ | ⟨-, -, -, hw⟩ | ⟨-, -, hw⟩ | ⟨e, -, hw⟩ := hostWrite_cases s a v <;>
    rw [hw] at hchanged ⊢
  · exact absurd hclear ha
  · exact absurd rfl hchanged
  · exact raiseError_precise hchanged
  · exact absurd (storedAt_err s _ v) hchanged
  · exact raiseError_precise hchanged

end Sys2Proof.Machine
end

section
/-! PROOFS. What each agent's step is; every step keeps the invariant, and from an invariant state only a broken port
contract stops one (spec/10_state.md R23, R26, R27, R41, spec/60_exceptions.md R203, R211). -/

namespace Sys2Proof.Machine

/-! ## The step of each agent (R12, R64) -/

theorem step_of_host {s : State} (h : nextAgent s = .host) : step s = .next (hostTurn (takeTurn s)) := by
  simp only [step, h]

theorem step_of_core {s : State} (h : nextAgent s = .core) : step s = coreTurn (takeTurn s) := by
  simp only [step, h]

theorem step_of_reset {s : State} (h : nextAgent s = .reset) : step s = .next (resetEvent (takeTurn s)) := by
  simp only [step, h]

theorem coreTurn_of_idle {s : State} (h : s.phase = .idle) : coreTurn s = .next s := by
  simp only [coreTurn, h]

theorem coreTurn_of_busy {s : State} {cw : Word} {i : Instr} (hphase : s.phase = .busy) (hcmdl : s.cmdl = some cw)
    (hdecode : decode s.cfg.n cw = some i) : coreTurn s = exec i s := by
  simp only [coreTurn, hphase, hcmdl, Option.bind_some, hdecode]

/-- Settles O51: the core's turn, with the turn taken. -/
theorem stepRunsTheLatchedCommand : Obligations.StepRunsTheLatchedCommand := by
  intro s cw i hagent hphase hcmdl hdecode
  rw [step_of_core hagent]
  exact coreTurn_of_busy hphase hcmdl hdecode

/-! ## The invariant under the block's own events -/

/-- An empty control state is coherent (R23). -/
theorem controlOk_of_idle {s : State} (hphase : s.phase = .idle) (hcmdl : s.cmdl = none) : s.ControlOk := by
  simp [State.ControlOk, hphase, hcmdl]

theorem controlOk_congr {s t : State} (h : s.ControlOk) (hcfg : t.cfg = s.cfg) (hphase : t.phase = s.phase)
    (hcmdl : t.cmdl = s.cmdl) : t.ControlOk := by
  simpa only [State.ControlOk, hcfg, hphase, hcmdl] using h

theorem errorOk_congr {s t : State} (h : s.ErrorOk) (hcfg : t.cfg = s.cfg) (herr : t.err = s.err)
    (hinfo : t.errinfo = s.errinfo) : t.ErrorOk := by
  simpa only [State.ErrorOk, hcfg, herr, hinfo] using h

theorem resetFor_inv (c : Config) : (State.resetFor c).Inv :=
  ⟨resetFor_storageOk c, controlOk_of_idle rfl rfl, rfl⟩

theorem resetEvent_inv (s : State) : (resetEvent s).Inv := resetFor_inv s.cfg

/-- Settles O48: the storage by its law, nothing latched, nothing recorded. -/
theorem resetStateMeetsInvariant : Obligations.ResetStateMeetsInvariant := resetFor_inv

theorem exec_inv {i : Instr} {s t : State} (h : s.Inv) (ht : exec i s = .next t) : t.Inv := by
  obtain ⟨hstorage, -, herror⟩ := h
  obtain ⟨hcfg, herr, hinfo, -, -, hphase, hcmdl⟩ := exec_keeps ht
  exact ⟨exec_storageOk hstorage ht, controlOk_of_idle hphase hcmdl, errorOk_congr herror hcfg herr hinfo⟩

/-! ## The invariant under the host's accesses -/

theorem addrInfo_toNat_lt (a : HostAddr) : (addrInfo a).toNat < 2 ^ 17 := by
  rw [addrInfo, BitVec.toNat_setWidth_of_le (by decide)]
  exact a.isLt

theorem raiseError_errorOk {s : State} {e : ErrCode} {info : Word} (h : s.ErrorOk)
    (hnew : ({ s with err := e, errinfo := info } : State).ErrorOk) : (raiseError s e info).ErrorOk := by
  unfold raiseError
  split
  · exact hnew
  · exact h

/-- An address fits every code that is recorded with one (R26). -/
theorem rejectsWithAddress_errorOk {s t : State} {a : HostAddr} (h : s.ErrorOk) (ht : rejectsWithAddress s t a) :
    t.ErrorOk := by
  have hlt := addrInfo_toNat_lt a
  obtain ⟨e, rfl | rfl | rfl | rfl, rfl⟩ := ht <;> exact raiseError_errorOk h hlt

theorem hostWrite_inv {s : State} (h : s.Inv) (a : HostAddr) (v : Word) : (hostWrite s a v).Inv := by
  have hstorage := hostWrite_storageOk h.1 a v
  obtain ⟨-, hcontrol, herror⟩ := h
  obtain ⟨-, hw⟩ | ⟨-, -, hlegal, hw⟩ | ⟨-, -, hillegal, hw⟩ | ⟨-, -, hw⟩ | hreject := hostWrite_cases s a v
  · rw [hw] at hstorage ⊢
    exact ⟨hstorage, controlOk_congr hcontrol rfl rfl rfl, rfl⟩
  · rw [hw] at hstorage ⊢
    refine ⟨hstorage, ⟨by simp, ?_⟩, errorOk_congr herror rfl rfl rfl⟩
    rintro w ⟨⟩
    exact hlegal
  · rw [hw] at hstorage ⊢
    exact ⟨hstorage, controlOk_congr hcontrol (by simp) (by simp) (by simp), raiseError_errorOk herror hillegal⟩
  · rw [hw] at hstorage ⊢
    exact ⟨hstorage, controlOk_congr hcontrol (by simp) (by simp) (by simp),
      errorOk_congr herror (by simp) (by simp) (by simp)⟩
  · have herror' := rejectsWithAddress_errorOk herror hreject
    obtain ⟨e, -, hw⟩ := hreject
    exact ⟨hstorage, by rw [hw]; exact controlOk_congr hcontrol (by simp) (by simp) (by simp), herror'⟩

/-- The invariant speaks of the block and of nothing in the environment. -/
theorem inv_withEnv {s : State} (h : s.Inv) (e : Env) : ({ s with env := e } : State).Inv := h

theorem hostTurn_inv {s : State} (h : s.Inv) : (hostTurn s).Inv := by
  obtain ⟨as, ls, ht | ⟨a, v, ht⟩ | ⟨a, ht⟩ | ht⟩ := hostTurn_cases s <;> rw [ht]
  · exact inv_withEnv h _
  · have hw := hostWrite_inv (inv_withEnv h (setScript (announce s as) ls).env) a v
    obtain ⟨-, hl⟩ | ⟨-, hl⟩ := hostWriteLine_cases (setScript (announce s as) ls) a v <;> rw [hl]
    · exact inv_withEnv hw _
    · exact hw
  · exact inv_withEnv h _
  · exact resetEvent_inv _

/-- Settles O49: the host's turn by `hostTurn_inv`, a completion by `exec_inv`, a reset by `resetEvent_inv`. -/
theorem stepKeepsInvariant : Obligations.StepKeepsInvariant := by
  intro s t h hstep
  have hturn : (takeTurn s).Inv := inv_withEnv h _
  obtain ⟨-, rfl⟩ | ⟨-, hcore⟩ | ⟨-, rfl⟩ := step_cases hstep
  · exact hostTurn_inv hturn
  · obtain ⟨-, rfl⟩ | ⟨cw, i, -, -, -, hexec⟩ := coreTurn_next hcore
    · exact hturn
    · exact exec_inv hturn hexec
  · exact resetEvent_inv _

/-! ## Progress -/

/-- A well-formed command completes, or its draws break the port's contract (R116, R211). -/
theorem exec_next_or_refused {i : Instr} {s : State} (hwf : i.wf s.cfg.n = true) :
    (∃ t, exec i s = .next t) ∨ exec i s = .refused .drawOutOfContract := by
  by_cases hsource : s.SourceKeepsContract i
  · exact .inl (exec_completes hwf hsource)
  · cases i with
    | keygen | enc => exact .inr (if_neg hsource)
    | modred | dot | matvec | matvecT | dec => exact absurd (contractKept_nil _ _) hsource

/-- A busy core finds a legal word latched, which decodes to a well-formed command. -/
theorem coreTurn_next_or_refused {s : State} (h : s.ControlOk) :
    (∃ t, coreTurn s = .next t) ∨ coreTurn s = .refused .drawOutOfContract := by
  obtain ⟨hbusy, hlegal⟩ := h
  cases hphase : s.phase with
  | idle => exact .inl ⟨s, coreTurn_of_idle hphase⟩
  | busy =>
    obtain ⟨cw, hcmdl⟩ := Option.isSome_iff_exists.1 (hbusy.1 hphase)
    obtain ⟨i, hdecode⟩ := exists_decode_of_legal (hlegal cw hcmdl)
    rw [coreTurn_of_busy hphase hcmdl hdecode]
    exact exec_next_or_refused (wf_of_decode hdecode)

/-- Settles O50: the host's turn and the reset always answer, the core's by `coreTurn_next_or_refused`. -/
theorem onlyABrokenContractStopsTheMachine : Obligations.OnlyABrokenContractStopsTheMachine := by
  intro s h
  obtain ⟨-, hcontrol, -⟩ := h
  cases hagent : nextAgent s with
  | host => exact .inl ⟨_, step_of_host hagent⟩
  | core =>
    rw [step_of_core hagent]
    exact coreTurn_next_or_refused (controlOk_congr hcontrol (takeTurn_cfg s) (takeTurn_phase s) (takeTurn_cmdl s))
  | reset => exact .inl ⟨_, step_of_reset hagent⟩

end Sys2Proof.Machine
end

section
/-! PROOFS. The host's turn line by line, what no step changes, and the end of a command in flight
(spec/00_scope.md R12, spec/20_memory.md R60, spec/30_encoding.md R89,
spec/70_reset_and_hazards.md R220, R221, R228). -/

namespace Sys2Proof.Machine

/-! ## Reading the parts of a turn -/

theorem setScript_self {s : State} {ls : List HostLine} (h : s.env.script = ls) : setScript s ls = s := by
  subst h
  rfl

theorem pollFindsIdle_eq (s : State) : pollFindsIdle s = !busyFlag s := by
  rw [pollFindsIdle, hostRead_of_normal rfl, definedWord_status rfl, statusWord_bit_zero]

theorem pollFindsIdle_of_idle {s : State} (h : s.phase = .idle) : pollFindsIdle s = true := by
  simp [pollFindsIdle_eq, busyFlag, h]

theorem pollFindsIdle_of_busy {s : State} (h : s.phase = .busy) : pollFindsIdle s = false := by
  simp [pollFindsIdle_eq, busyFlag, h]

theorem startsCommand_iff (s : State) (a : HostAddr) (v : Word) :
    startsCommand s a v = true ↔ s.phase = .idle ∧ locate a = .cmd ∧ legal s.cfg.n v = true := by
  simp [startsCommand, and_assoc]

theorem readIsUnspecified_iff (s : State) (a : HostAddr) :
    readIsUnspecified s a = true ↔ s.phase = .busy ∧ readsNormallyWhileBusy (locate a) = false := by
  simp [readIsUnspecified]

/-- A WR or CMD line writes the block as `hostWrite` does, whatever the environment, and of the environment it touches
the answers stated alone. -/
theorem hostWriteLine_withEnv (s : State) (e : Env) (a : HostAddr) (v : Word) :
    hostWriteLine { s with env := e } a v = { hostWrite s a v with
      env := (if s.phase = .idle ∧ locate a = .cmd ∧ legal s.cfg.n v = true
        then { e with answers := e.announced, announced := [] } else e) } := by
  have hstarts : startsCommand { s with env := e } a v = startsCommand s a v := rfl
  rw [hostWriteLine, hstarts, hostWrite_withEnv]
  simp only [startsCommand_iff]
  split <;> rfl

/-! ## Line by line (R89) -/

theorem step_of_script {s : State} {ls : List HostLine} (hagent : nextAgent s = .host) (h : s.env.script = ls) :
    step s = .next (hostAct ls (takeTurn s)) := by
  rw [step_of_host hagent, ← h]
  rfl

theorem step_of_write {s : State} {a : HostAddr} {v : Word} {ls : List HostLine} (hagent : nextAgent s = .host)
    (h : s.env.script = .wr a v :: ls ∨ ∃ i, s.env.script = .cmd i :: ls ∧ a = 0x00005#17 ∧ v = encode i) :
    step s = .next (hostWriteLine (setScript (takeTurn s) ls) a v) := by
  obtain h | ⟨i, h, rfl, rfl⟩ := h
  · exact step_of_script hagent h
  · exact step_of_script hagent h

theorem step_of_wait {s : State} {ls : List HostLine} (hagent : nextAgent s = .host)
    (h : s.env.script = .wait :: ls) :
    (s.phase = .busy → step s = .next (takeTurn s))
      ∧ (s.phase = .idle → step s = .next (setScript (takeTurn s) ls)) := by
  rw [step_of_script hagent h, hostAct]
  constructor
  · intro hphase
    rw [pollFindsIdle_of_busy (s := takeTurn s) hphase, if_neg (by decide), setScript_self (s := takeTurn s) h]
  · intro hphase
    rw [pollFindsIdle_of_idle (s := takeTurn s) hphase, if_pos rfl]

theorem step_of_read {s : State} {a : HostAddr} {ls : List HostLine} (hagent : nextAgent s = .host)
    (h : s.env.script = .rd a :: ls) :
    step s = .next { s with env := { (takeTurn s).env with
      script := ls
      received := s.env.received ++ [hostRead s a]
      freeReads := s.env.freeReads
        + (if s.phase = .busy ∧ readsNormallyWhileBusy (locate a) = false then 1 else 0) } } := by
  rw [step_of_script hagent h]
  simp only [← readIsUnspecified_iff]
  rfl

theorem step_of_draws {s : State} {as : List Answer} {ls : List HostLine} (hagent : nextAgent s = .host)
    (h : s.env.script = .draws as :: ls) :
    step s = step { s with env := { s.env with script := ls, announced := as } } := by
  have hagent' : nextAgent { s with env := { s.env with script := ls, announced := as } } = .host := hagent
  rw [step_of_host hagent, step_of_host hagent', hostTurn_draws (s := takeTurn s) h]
  rfl

/-- Settles O52: each agent, and each line of the host, by its own lemma. -/
theorem stepOfTheOtherAgents : Obligations.StepOfTheOtherAgents := by
  intro s
  refine ⟨rfl, fun hagent => ⟨step_of_reset hagent, rfl⟩, fun hagent hphase => ?core, fun hagent h => ?empty,
    fun a v ls hagent h => ⟨_, step_of_write hagent h, ?block, ?env⟩, fun a ls => step_of_read,
    fun ls hagent h => (step_of_wait hagent h).1, fun ls hagent h => (step_of_wait hagent h).2,
    fun ls => step_of_script, fun as ls => step_of_draws⟩
  case core => rw [step_of_core hagent, coreTurn_of_idle (s := takeTurn s) hphase]
  case empty => rw [step_of_script hagent h, hostAct, setScript_self (s := takeTurn s) h]
  case block =>
    rw [show setScript (takeTurn s) ls = { s with env := (setScript (takeTurn s) ls).env } from rfl,
      hostWriteLine_withEnv, ← (hostWrite_keeps s a v).2]
  case env =>
    rw [show setScript (takeTurn s) ls = { s with env := (setScript (takeTurn s) ls).env } from rfl,
      hostWriteLine_withEnv]
    rfl

/-! ## The host's next action (R89) -/

/-- Everything the host can do with its lines, by the first of them that is an action: the environment alone changes,
with it the block is written, or it is reset. The lines left are a rest of those there were; the answers of the command
in flight and the turns stand. -/
theorem hostAct_cases_of_find (ls : List HostLine) (s : State) : ∃ e : Env,
    (e.script <:+ ls ∧ e.answers = s.env.answers ∧ e.turns = s.env.turns)
      ∧ (hostAct ls s = { s with env := e }
        ∨ (∃ a v, (ls.find? HostLine.isAction = some (.wr a v) ∨ ∃ i, ls.find? HostLine.isAction = some (.cmd i))
            ∧ hostAct ls s = hostWriteLine { s with env := e } a v)
        ∨ (ls.find? HostLine.isAction = some .reset ∧ hostAct ls s = resetEvent { s with env := e })) := by
  induction ls generalizing s with
  | nil => exact ⟨(setScript s []).env, ⟨List.suffix_rfl, rfl, rfl⟩, .inl rfl⟩
  | cons l ls ih =>
    have hrest : ls <:+ l :: ls := List.suffix_cons l ls
    cases l with
    | wr a v => exact ⟨(setScript s ls).env, ⟨hrest, rfl, rfl⟩, .inr (.inl ⟨a, v, .inl rfl, rfl⟩)⟩
    | rd a => exact ⟨(hostReadLine (setScript s ls) a).env, ⟨hrest, rfl, rfl⟩, .inl rfl⟩
    | cmd i => exact ⟨(setScript s ls).env, ⟨hrest, rfl, rfl⟩, .inr (.inl ⟨_, _, .inr ⟨i, rfl⟩, rfl⟩)⟩
    | wait =>
      rw [hostAct]
      split
      · exact ⟨(setScript s ls).env, ⟨hrest, rfl, rfl⟩, .inl rfl⟩
      · exact ⟨(setScript s (.wait :: ls)).env, ⟨List.suffix_rfl, rfl, rfl⟩, .inl rfl⟩
    | reset => exact ⟨(setScript s ls).env, ⟨hrest, rfl, rfl⟩, .inr (.inr ⟨rfl, rfl⟩)⟩
    | draws as =>
      obtain ⟨e, ⟨hscript, henv⟩, hcases⟩ := ih (announce s as)
      exact ⟨e, ⟨hscript.trans hrest, henv⟩, hcases⟩

/-! ## What no step changes -/

theorem hostWriteLine_cfg (s : State) (a : HostAddr) (v : Word) : (hostWriteLine s a v).cfg = s.cfg := by
  rw [show s = { s with env := s.env } from rfl, hostWriteLine_withEnv]
  exact (hostWrite_keeps s a v).1

theorem hostTurn_cfg (s : State) : (hostTurn s).cfg = s.cfg := by
  obtain ⟨as, ls, ht | ⟨a, v, ht⟩ | ⟨a, ht⟩ | ht⟩ := hostTurn_cases s <;> rw [ht]
  · rfl
  · exact hostWriteLine_cfg ..
  · rfl
  · rfl

/-- Settles O54: each agent's step keeps the configuration. -/
theorem configurationNeverChanges : Obligations.ConfigurationNeverChanges := by
  intro s t hstep
  obtain ⟨-, rfl⟩ | ⟨-, hcore⟩ | ⟨-, rfl⟩ := step_cases hstep
  · exact hostTurn_cfg (takeTurn s)
  · obtain ⟨-, rfl⟩ | ⟨cw, i, -, -, -, hexec⟩ := coreTurn_next hcore
    · rfl
    · exact (exec_keeps hexec).1
  · rfl

/-- Settles O55: an idle core does nothing, and of the host's actions only a write or a reset touches the block. -/
theorem idleBlockChangesOnlyByWriteOrReset : Obligations.IdleBlockChangesOnlyByWriteOrReset := by
  intro s t hphase hstep hagent hwr hcmd hreset
  obtain ⟨-, rfl⟩ | ⟨-, hcore⟩ | ⟨hreset', -⟩ := step_cases hstep
  · obtain ⟨e, -, ht | ⟨a, v, hwr' | ⟨i, hcmd'⟩, -⟩ | ⟨hreset', -⟩⟩ :=
      hostAct_cases_of_find (takeTurn s).env.script (takeTurn s)
    · rw [hostTurn, ht]; rfl
    · exact absurd hwr' (hwr a v)
    · exact absurd hcmd' (hcmd i)
    · exact absurd hreset' hreset
  · rw [coreTurn_of_idle (s := takeTurn s) hphase] at hcore
    cases hcore
    rfl
  · exact absurd hreset' hagent

/-! ## A command in flight (R60, R221, R228) -/

/-- Of the block only the error record differs; the environment is not the block's. -/
def SameButRecord (s t : State) : Prop := { t with err := s.err, errinfo := s.errinfo, env := s.env } = s

theorem SameButRecord.trans {s t u : State} (hst : SameButRecord s t) (htu : SameButRecord t u) :
    SameButRecord s u := by
  unfold SameButRecord at hst htu ⊢
  exact (congrArg (fun x : State => { x with err := s.err, errinfo := s.errinfo, env := s.env }) htu).trans hst

theorem sameButRecord_withEnv (s : State) (e : Env) : SameButRecord s { s with env := e } := rfl

theorem SameButRecord.control {s t : State} (h : SameButRecord s t) :
    t.cfg = s.cfg ∧ t.phase = s.phase ∧ t.cmdl = s.cmdl := by
  unfold SameButRecord at h
  have hcfg := congrArg State.cfg h
  have hphase := congrArg State.phase h
  have hcmdl := congrArg State.cmdl h
  exact ⟨hcfg, hphase, hcmdl⟩

theorem raiseError_sameButRecord (s : State) (e : ErrCode) (info : Word) : SameButRecord s (raiseError s e info) := by
  unfold raiseError
  split <;> rfl

/-- While busy a host write clears the record or records an error. -/
theorem hostWrite_of_busy_sameButRecord {s : State} (hphase : s.phase = .busy) (a : HostAddr) (v : Word) :
    SameButRecord s (hostWrite s a v) := by
  by_cases ha : locate a = .err
  · rw [hostWrite_of_err ha]; rfl
  · rw [hostWrite_of_busy hphase ha]; exact raiseError_sameButRecord ..

theorem hostWriteLine_of_busy {s : State} (hphase : s.phase = .busy) (a : HostAddr) (v : Word) :
    hostWriteLine s a v = hostWrite s a v := by
  rw [hostWriteLine, if_neg]
  simp [startsCommand_iff, hphase]

/-- While busy the host resets the block, or leaves of it all but the record, and the draws' answers with it. -/
theorem hostTurn_of_busy {s : State} (hphase : s.phase = .busy) :
    (s.nextHostLine = some .reset ∧ (hostTurn s).phase = .idle)
      ∨ (SameButRecord s (hostTurn s) ∧ (hostTurn s).env.answers = s.env.answers
          ∧ (hostTurn s).env.turns = s.env.turns ∧ (hostTurn s).env.script <:+ s.env.script) := by
  obtain ⟨e, ⟨hscript, hanswers, hturns⟩, ht | ⟨a, v, -, ht⟩ | ⟨hreset, ht⟩⟩ := hostAct_cases_of_find s.env.script s
  · rw [hostTurn, ht]
    exact .inr ⟨rfl, hanswers, hturns, hscript⟩
  · have hwrite := hostWrite_of_busy_sameButRecord (s := { s with env := e }) hphase a v
    rw [hostTurn, ht, hostWriteLine_of_busy (s := { s with env := e }) hphase, (hostWrite_keeps _ a v).2]
    exact .inr ⟨(sameButRecord_withEnv s e).trans hwrite, hanswers, hturns, hscript⟩
  · rw [hostTurn, ht]
    exact .inl ⟨hreset, rfl⟩

/-- Settles O56: a busy host turn that is no reset. -/
theorem operandsOfACommandInFlightStand : Obligations.OperandsOfACommandInFlightStand := by
  intro s t hphase hagent hreset hstep
  rw [step_of_host hagent] at hstep
  cases hstep
  obtain ⟨hreset', -⟩ | ⟨hsame, hanswers, -⟩ := hostTurn_of_busy (s := takeTurn s) hphase
  · exact absurd hreset' hreset
  · exact ⟨(sameButRecord_withEnv s _).trans hsame, hanswers⟩

/-! ## A command in flight ends (R228) -/

/-- Command `i` is in flight and its draws are within the port's contract. -/
structure InFlight (i : Instr) (s : State) : Prop where
  busy : s.phase = .busy
  latched : ∃ cw, s.cmdl = some cw ∧ decode s.cfg.n cw = some i
  source : s.SourceKeepsContract i

theorem nextAgent_of_turns {s : State} {a : Agent} {as : List Agent} (h : s.env.turns = a :: as) : nextAgent s = a := by
  rw [nextAgent, h]

theorem nextAgent_of_busy {s : State} (h : s.env.turns = []) (hphase : s.phase = .busy) : nextAgent s = .core := by
  rw [nextAgent, h]
  simp only [hphase]

theorem core_run_succ {s t : State} (h : step s = .next t) (k : Nat) :
    Sys2Proof.core.run (k + 1) s = Sys2Proof.core.run k t := by
  have hstep : Sys2Proof.core.step s = .next t := h
  simp only [Host.Core.run, hstep]

/-- On the core's turn the command completes. -/
theorem InFlight.completes {i : Instr} {s : State} (h : InFlight i s) (hagent : nextAgent s = .core) :
    ∃ t, step s = exec i (takeTurn s) ∧ step s = .next t ∧ t.phase = .idle ∧ t.cmdl = none := by
  obtain ⟨cw, hcmdl, hdecode⟩ := h.latched
  have hstep := stepRunsTheLatchedCommand s cw i hagent h.busy hcmdl hdecode
  obtain ⟨t, ht⟩ := exec_completes (s := takeTurn s) (wf_of_decode hdecode) h.source
  obtain ⟨-, -, -, -, -, hphase, hcmdl'⟩ := exec_keeps ht
  exact ⟨t, hstep, hstep.trans ht, hphase, hcmdl'⟩

/-- What a command in flight reads stands as long as the record alone changes. -/
theorem InFlight.of_sameButRecord {i : Instr} {s t : State} (h : InFlight i s) (hsame : SameButRecord s t)
    (hanswers : t.env.answers = s.env.answers) : InFlight i t := by
  obtain ⟨hbusy, hlatched, hsource⟩ := h
  obtain ⟨hcfg, hphase, hcmdl⟩ := hsame.control
  exact ⟨hphase.trans hbusy, by rwa [hcmdl, hcfg], by rwa [State.SourceKeepsContract, hcfg, hanswers]⟩

/-- A turn of the host while a command is in flight: a reset by its script, or the command still stands. -/
theorem InFlight.step_of_host {i : Instr} {s : State} (h : InFlight i s) (hagent : nextAgent s = .host) :
    ∃ t, step s = .next t ∧ ((s.nextHostLine = some .reset ∧ t.phase = .idle)
      ∨ (InFlight i t ∧ SameButRecord s t ∧ t.env.turns = s.env.turns.drop 1 ∧ t.env.script <:+ s.env.script)) := by
  refine ⟨_, Machine.step_of_host hagent, ?_⟩
  obtain hreset | ⟨hsame, hanswers, hturns, hscript⟩ := hostTurn_of_busy (s := takeTurn s) h.busy
  · exact .inl hreset
  · have hsame' := (sameButRecord_withEnv s _).trans hsame
    exact .inr ⟨h.of_sameButRecord hsame' hanswers, hsame', hturns, hscript⟩

/-- The turns listed run out, and then, if not before, the core has its turn. -/
theorem InFlight.reaches_idle {i : Instr} {s : State} (h : InFlight i s) :
    ∃ k ≤ s.env.turns.length + 1, ∃ t : State, Sys2Proof.core.run k s = .next t ∧ t.phase = .idle := by
  have hcore {s : State} (h : InFlight i s) (hagent : nextAgent s = .core) :
      ∃ t : State, Sys2Proof.core.run 1 s = .next t ∧ t.phase = .idle := by
    obtain ⟨t, -, ht, hphase, -⟩ := h.completes hagent
    exact ⟨t, core_run_succ ht 0, hphase⟩
  induction hturns : s.env.turns generalizing s with
  | nil => exact ⟨1, by simp, hcore h (nextAgent_of_busy hturns h.busy)⟩
  | cons a as ih =>
    have hagent := nextAgent_of_turns hturns
    cases a with
    | core => exact ⟨1, by simp, hcore h hagent⟩
    | reset => exact ⟨1, by simp, _, core_run_succ (step_of_reset hagent) 0, rfl⟩
    | host =>
      obtain ⟨t, ht, ⟨-, hphase⟩ | ⟨hflight, -, hturns', -⟩⟩ := h.step_of_host hagent
      · exact ⟨1, by simp, t, core_run_succ ht 0, hphase⟩
      · rw [hturns, List.drop_one, List.tail_cons] at hturns'
        obtain ⟨k, hk, u, hrun, hphase⟩ := ih hflight hturns'
        exact ⟨k + 1, by simpa using hk, u, (core_run_succ ht k).trans hrun, hphase⟩

theorem nextHostLine_mem {s : State} {l : HostLine} (h : s.nextHostLine = some l) : l ∈ s.env.script :=
  List.mem_of_find?_eq_some h

/-- Without a reset the turns before the core's leave the command in flight. -/
theorem InFlight.reaches_completion {i : Instr} {s : State} (h : InFlight i s) (hreset : Agent.reset ∉ s.env.turns)
    (hscript : HostLine.reset ∉ s.env.script) :
    ∃ k ≤ s.env.turns.length, ∃ u : State, Sys2Proof.core.run k s = .next u ∧ SameButRecord s u
      ∧ InFlight i u ∧ nextAgent u = .core := by
  induction hturns : s.env.turns generalizing s with
  | nil => exact ⟨0, le_rfl, s, rfl, rfl, h, nextAgent_of_busy hturns h.busy⟩
  | cons a as ih =>
    have hagent := nextAgent_of_turns hturns
    cases a with
    | core => exact ⟨0, Nat.zero_le _, s, rfl, rfl, h, hagent⟩
    | reset => simp [hturns] at hreset
    | host =>
      obtain ⟨t, ht, ⟨hline, -⟩ | ⟨hflight, hsame, hturns', hscript'⟩⟩ := h.step_of_host hagent
      · exact absurd (nextHostLine_mem hline) hscript
      · rw [hturns, List.drop_one, List.tail_cons] at hturns'
        rw [hturns] at hreset
        obtain ⟨k, hk, u, hrun, hsame', hflight', hagent'⟩ :=
          ih hflight (hturns' ▸ List.not_mem_of_not_mem_cons hreset) (mt (hscript'.subset ·) hscript) hturns'
        exact ⟨k + 1, by simpa using hk, u, (core_run_succ ht k).trans hrun, hsame.trans hsame', hflight', hagent'⟩

/-- Settles O53: by induction on the turns listed, once for the end and once for the completion. -/
theorem acceptedCommandCompletes : Obligations.AcceptedCommandCompletes := by
  intro s cw i hphase hcmdl hdecode hsource
  have hflight : InFlight i s := ⟨hphase, ⟨cw, hcmdl, hdecode⟩, hsource⟩
  refine ⟨hflight.reaches_idle, fun hreset hscript => ?_⟩
  obtain ⟨k, hk, u, hrun, hsame, hflight', hagent⟩ := hflight.reaches_completion hreset hscript
  obtain ⟨t, hexec, ht, hend⟩ := hflight'.completes hagent
  exact ⟨k, hk, u, t, hrun, hsame, hexec, ht, hend⟩

end Sys2Proof.Machine
end

section
/-! PROOFS. The host's text codec (spec/47_host_text_codec.md R181, R182). -/

namespace Sys2Proof.Machine

/-! ## The bits of a character -/

theorem charBits_length (c : Nat) : (charBits c).length = 8 := by simp [charBits]

theorem bitVal_beq_one {x : Nat} (hx : x < 2) : bitVal (x == 1) = x := by
  obtain rfl | rfl : x = 0 ∨ x = 1 := by omega
  · rfl
  · rfl

/-- Settles O57: bit `i` is the quotient by `2 ^ (7 - i)`, modulo 2. -/
theorem characterBitsAreMostSignificantFirst : Obligations.CharacterBitsAreMostSignificantFirst := by
  intro c _
  refine ⟨charBits_length c, fun i hi => ?_⟩
  rw [charBits, getD_map_range 8 _ false hi, Nat.testBit_eq_decide_div_mod_eq]
  rfl

/-- A group made of a character's bits has the character's code. -/
theorem decodeBitsToText_charBits_append {c : Nat} (hc : c ≤ 255) (ms : List Bool) :
    decodeBitsToText (charBits c ++ ms) = (decodeBitsToText ms).map (c :: ·) := by
  have hbits : charBits c = [c / 128 % 2 == 1, c / 64 % 2 == 1, c / 32 % 2 == 1, c / 16 % 2 == 1,
    c / 8 % 2 == 1, c / 4 % 2 == 1, c / 2 % 2 == 1, c / 1 % 2 == 1] := rfl
  have hcode : groupCode (c / 128 % 2 == 1) (c / 64 % 2 == 1) (c / 32 % 2 == 1) (c / 16 % 2 == 1)
      (c / 8 % 2 == 1) (c / 4 % 2 == 1) (c / 2 % 2 == 1) (c / 1 % 2 == 1) = c := by
    simp only [groupCode, bitVal_beq_one (Nat.mod_lt _ two_pos)]
    have halve (k : Nat) : c / (k * 2) = c / k / 2 := (Nat.div_div_eq_div_mul c k 2).symm
    have h4 := halve 2
    have h8 := halve 4
    have h16 := halve 8
    have h32 := halve 16
    have h64 := halve 32
    have h128 := halve 64
    omega
  rw [hbits, List.cons_append]
  simp only [List.cons_append, List.nil_append, decodeBitsToText, hcode]

/-! ## Texts -/

theorem encodeTextToBits_of_le {text : List Nat} (h : ∀ c ∈ text, c ≤ 255) :
    encodeTextToBits text = some (text.flatMap charBits) := if_pos (by simpa using h)

theorem flatMap_charBits_length (text : List Nat) : (text.flatMap charBits).length = 8 * text.length := by
  simp [List.length_flatMap, charBits_length, Nat.mul_comm]

theorem decodeBitsToText_flatMap_charBits {text : List Nat} (h : ∀ c ∈ text, c ≤ 255) :
    decodeBitsToText (text.flatMap charBits) = some text := by
  induction text with
  | nil => rfl
  | cons c text ih =>
    obtain ⟨hc, htext⟩ := List.forall_mem_cons.1 h
    rw [List.flatMap_cons, decodeBitsToText_charBits_append hc, ih htext, Option.map_some]

/-- Settles O58: character by character. -/
theorem decodeInvertsEncodeText : Obligations.DecodeInvertsEncodeText := by
  intro text h
  exact ⟨_, encodeTextToBits_of_le h, flatMap_charBits_length text, decodeBitsToText_flatMap_charBits h⟩

/-! ## Malformed input -/

theorem encodeTextToBits_of_lt {text : List Nat} (h : ∃ c ∈ text, 255 < c) : encodeTextToBits text = none :=
  if_neg (by simpa using h)

theorem exists_group_of_le_length {ms : List Bool} (h : 8 ≤ ms.length) :
    ∃ g0 g1 g2 g3 g4 g5 g6 g7 rest, ms = g0 :: g1 :: g2 :: g3 :: g4 :: g5 :: g6 :: g7 :: rest := by
  rcases ms with _ | ⟨g0, _ | ⟨g1, _ | ⟨g2, _ | ⟨g3, _ | ⟨g4, _ | ⟨g5, _ | ⟨g6, _ | ⟨g7, rest⟩⟩⟩⟩⟩⟩⟩⟩
  case cons.cons.cons.cons.cons.cons.cons.cons => exact ⟨g0, g1, g2, g3, g4, g5, g6, g7, rest, rfl⟩
  all_goals simp at h

/-- The decoder takes 8 bits at a time and stops at fewer. -/
theorem decodeBitsToText_isSome_iff (ms : List Bool) : (decodeBitsToText ms).isSome = true ↔ 8 ∣ ms.length := by
  induction ms using decodeBitsToText.induct with
  | case1 => simp [decodeBitsToText]
  | case2 g0 g1 g2 g3 g4 g5 g6 g7 rest ih =>
    rw [decodeBitsToText, Option.isSome_map, ih]
    simp only [List.length_cons]
    omega
  | case3 ms hnil hgroup =>
    have hpos : 0 < ms.length := List.length_pos_iff.2 hnil
    have hlt : ms.length < 8 := by
      by_contra hge
      obtain ⟨g0, g1, g2, g3, g4, g5, g6, g7, rest, rfl⟩ := exists_group_of_le_length (not_lt.1 hge)
      exact hgroup _ _ _ _ _ _ _ _ _ rfl
    rw [decodeBitsToText.eq_3 ms hnil hgroup]
    simp only [Option.isSome_none, Bool.false_eq_true, false_iff]
    omega

/-- Settles O59: each function by its own lemma. -/
theorem malformedTextIsRefused : Obligations.MalformedTextIsRefused :=
  ⟨fun _ => encodeTextToBits_of_lt, decodeBitsToText_isSome_iff⟩

end Sys2Proof.Machine
end

section
/-! PROOFS. One request, one response: a run of lines in the default order of turns goes on through the lines that
follow, and the host's reads and its clearing write after it (spec/47_host_text_codec.md R186). -/

namespace Sys2Proof.Machine

/-! ## The default order of turns -/

theorem takeTurn_of_nil {s : State} (h : s.env.turns = []) : takeTurn s = s := by
  unfold takeTurn
  rw [h, List.drop_nil, ← h]

theorem nextAgent_of_idle {s : State} (h : s.env.turns = []) (hphase : s.phase = .idle) : nextAgent s = .host := by
  rw [nextAgent, h]
  simp only [hphase]

/-- In the idle phase the host acts. -/
theorem step_setScript_of_idle {s : State} (h : s.env.turns = []) (hphase : s.phase = .idle) (ls : List HostLine) :
    step (setScript s ls) = .next (hostAct ls s) := by
  rw [step_of_host (nextAgent_of_idle (s := setScript s ls) h hphase), takeTurn_of_nil (s := setScript s ls) h]
  exact congrArg _ (hostAct_setScript ls ls s)

/-- While busy the core acts, whatever lines the host has. -/
theorem step_setScript_of_busy {s : State} {cw : Word} {i : Instr} (h : s.env.turns = []) (hphase : s.phase = .busy)
    (hcmdl : s.cmdl = some cw) (hdecode : decode s.cfg.n cw = some i) (ls : List HostLine) :
    step (setScript s ls) = exec i (setScript s ls) := by
  rw [step_of_core (nextAgent_of_busy (s := setScript s ls) h hphase), takeTurn_of_nil (s := setScript s ls) h]
  exact coreTurn_of_busy (s := setScript s ls) hphase hcmdl hdecode

/-! ## No step lists a turn -/

theorem hostAct_turns (ls : List HostLine) (s : State) : (hostAct ls s).env.turns = s.env.turns := by
  obtain ⟨e, ⟨-, -, hturns⟩, h | ⟨a, v, -, h⟩ | ⟨-, h⟩⟩ := hostAct_cases_of_find ls s
  · rw [h]; exact hturns
  · rw [h, hostWriteLine_withEnv]
    split <;> exact hturns
  · rw [h]; exact hturns

theorem exec_keepsScript {i : Instr} {s t : State} (h : exec i s = .next t) :
    t.env.script = s.env.script ∧ t.env.turns = s.env.turns := by
  cases i with
  | modred => rw [execModred_next h]; exact ⟨rfl, rfl⟩
  | dot sa sb idx => rw [(execDot_next h).2]; exact ⟨rfl, rfl⟩
  | matvec dst sb => rw [execMatvec_next h]; simp
  | matvecT dst sb => rw [execMatvecT_next h]; simp
  | keygen => rw [(execKeygen_next h).2]; exact ⟨rfl, rfl⟩
  | enc => rw [(execEnc_next h).2]; exact ⟨rfl, rfl⟩
  | dec => rw [execDec_next h]; exact ⟨rfl, rfl⟩

/-! ## The lines that follow a run -/

/-- A command neither reads nor writes the host's lines. -/
theorem exec_setScript {i : Instr} {s t : State} (h : exec i s = .next t) (ls : List HostLine) :
    exec i (setScript s ls) = .next (setScript t ls) := by
  cases i with
  | modred => rw [execModred_next h]; rfl
  | dot sa sb idx =>
    obtain ⟨hwf, rfl⟩ := execDot_next h
    exact execDot_of_wf (s := setScript s ls) hwf
  | matvec dst sb => rw [execMatvec_next h]; cases dst <;> rfl
  | matvecT dst sb => rw [execMatvecT_next h]; cases dst <;> rfl
  | keygen =>
    obtain ⟨hc, rfl⟩ := execKeygen_next h
    exact execKeygen_of_contract (s := setScript s ls) hc
  | enc =>
    obtain ⟨hc, rfl⟩ := execEnc_next h
    exact execEnc_of_contract (s := setScript s ls) hc
  | dec => rw [execDec_next h]; rfl

/-- In front of other lines the host does what it does with its own, or, where no action is among these, the next of the
others. -/
theorem hostAct_append (ls ls' : List HostLine) {s : State} (hphase : s.phase = .idle) :
    hostAct (ls ++ ls') s = setScript (hostAct ls s) ((hostAct ls s).env.script ++ ls')
      ∨ ((hostAct ls s).RunOver ∧ hostAct (ls ++ ls') s = hostAct ls' (hostAct ls s)) := by
  have hwrite (s : State) (ls : List HostLine) (a : HostAddr) (v : Word) :
      hostWriteLine (setScript s (ls ++ ls')) a v = setScript (hostWriteLine (setScript s ls) a v)
        ((hostWriteLine (setScript s ls) a v).env.script ++ ls') := by
    rw [hostWriteLine_setScript, hostWriteLine_setScript]
    rfl
  induction ls generalizing s with
  | nil => exact .inr ⟨⟨rfl, hphase⟩, (hostAct_setScript ls' [] s).symm⟩
  | cons l ls ih =>
    cases l with
    | wr a v => exact .inl (hwrite s ls a v)
    | cmd i => exact .inl (hwrite s ls _ _)
    | rd a => exact .inl rfl
    | wait =>
      left
      rw [List.cons_append, hostAct, hostAct, pollFindsIdle_of_idle hphase]
      rfl
    | reset => exact .inl rfl
    | draws as => exact ih (s := announce s as) hphase

/-- A step with more lines behind the host's own: the same step, or, where no action was among these, the step the
others begin with. -/
theorem step_append {s t : State} (hturns : s.env.turns = []) (hstep : step s = .next t) (ls : List HostLine) :
    step (setScript s (s.env.script ++ ls)) = .next (setScript t (t.env.script ++ ls))
      ∨ (t.RunOver ∧ step (setScript s (s.env.script ++ ls)) = step (setScript t ls)) := by
  cases hphase : s.phase with
  | busy =>
    left
    rw [step_of_core (nextAgent_of_busy hturns hphase), takeTurn_of_nil hturns] at hstep
    obtain ⟨hidle, -⟩ | ⟨cw, i, -, hcmdl, hdecode, hexec⟩ := coreTurn_next hstep
    · rw [hphase] at hidle; cases hidle
    · rw [step_setScript_of_busy hturns hphase hcmdl hdecode, (exec_keepsScript hexec).1]
      exact exec_setScript hexec _
  | idle =>
    have ht : step s = .next (hostAct s.env.script s) := step_setScript_of_idle hturns hphase s.env.script
    obtain rfl : t = hostAct s.env.script s := by simpa using hstep.symm.trans ht
    rw [step_setScript_of_idle hturns hphase]
    obtain h | ⟨hover', h⟩ := hostAct_append s.env.script ls hphase
    · exact .inl (congrArg _ h)
    · have hturns' := (hostAct_turns s.env.script s).trans hturns
      exact .inr ⟨hover', (congrArg _ h).trans (step_setScript_of_idle hturns' hover'.2 ls).symm⟩

theorem step_turns {s t : State} (hturns : s.env.turns = []) (hstep : step s = .next t) : t.env.turns = [] := by
  obtain ⟨-, rfl⟩ | ⟨-, hcore⟩ | ⟨-, rfl⟩ := step_cases hstep <;> rw [takeTurn_of_nil hturns] at *
  · exact (hostAct_turns _ s).trans hturns
  · obtain ⟨-, rfl⟩ | ⟨cw, i, -, -, -, hexec⟩ := coreTurn_next hcore
    · exact hturns
    · exact (exec_keepsScript hexec).2.trans hturns
  · exact hturns

theorem runOut_turns {fuel : Nat} {s u : State} (hturns : s.env.turns = []) (h : runOut fuel s = some u) :
    u.env.turns = [] := by
  induction fuel generalizing s with
  | zero =>
    obtain ⟨-, rfl⟩ | ⟨k, t, hk, -⟩ := runOut_cases h
    · exact hturns
    · cases hk
  | succ n ih =>
    obtain ⟨-, rfl⟩ | ⟨k, t, hk, -, hstep, hrun⟩ := runOut_cases h
    · exact hturns
    · cases hk
      exact ih (step_turns hturns hstep) hrun

/-- A run goes on through the lines behind it. -/
theorem runOut_append {fuel k : Nat} {s u v : State} {ls : List HostLine} (hls : ls ≠ []) (hturns : s.env.turns = [])
    (hu : runOut fuel s = some u) (hv : runOut k (setScript u ls) = some v) :
    runOut (fuel + k) (setScript s (s.env.script ++ ls)) = some v := by
  induction fuel generalizing s with
  | zero =>
    obtain ⟨hover, rfl⟩ | ⟨n, t, hn, -⟩ := runOut_cases hu
    · rw [hover.1, Nat.zero_add]
      exact hv
    · cases hn
  | succ n ih =>
    obtain ⟨hover, rfl⟩ | ⟨m, t, hm, -, hstep, hrun⟩ := runOut_cases hu
    · rw [hover.1, Nat.add_comm]
      exact runOut_mono hv _
    · cases hm
      have hmore : ¬ (setScript s (s.env.script ++ ls)).RunOver := fun h => hls (List.append_eq_nil_iff.1 h.1).2
      obtain h | ⟨hover', h⟩ := step_append hturns hstep ls
      · rw [Nat.add_right_comm, runOut_step hmore h]
        exact ih (step_turns hturns hstep) hrun
      · rw [runOut_of_over hover'] at hrun
        cases hrun
        obtain ⟨hend, -⟩ | ⟨j, w, rfl, -, hw, hrun'⟩ := runOut_cases hv
        · exact absurd hend.1 hls
        · rw [← Nat.add_assoc, runOut_step hmore (h.trans hw), Nat.add_comm (n + 1)]
          exact runOut_mono hrun' _

/-! ## The lines of the request boundary -/

/-- The words received, counted anew. -/
def clearReceived (s : State) : State := { s with env := { s.env with received := [] } }

theorem runLines_eq (fuel : Nat) (s : State) (ls : List HostLine) :
    runLines fuel s ls = runOut fuel (setScript (clearReceived s) ls) := rfl

theorem runOut_end {s : State} (hphase : s.phase = .idle) (k : Nat) :
    runOut k (setScript s []) = some (setScript s []) :=
  runOut_of_over (s := setScript s []) ⟨rfl, hphase⟩ k

theorem runOut_read {s : State} (hturns : s.env.turns = []) (hphase : s.phase = .idle) (k : Nat) (l : Loc)
    (ls : List HostLine) :
    runOut (k + 1) (setScript s (readLine l :: ls)) = runOut k (setScript (hostReadLine s l.addr) ls) :=
  runOut_step (s := setScript s _) (fun h => by cases h.1) (step_setScript_of_idle hturns hphase _)

theorem hostWriteLine_of_err {a : HostAddr} (ha : locate a = .err) (s : State) (v : Word) :
    hostWriteLine s a v = clearError s := by
  rw [hostWriteLine, if_neg (by simp [startsCommand_iff, ha]), hostWrite_of_err ha]

theorem runOut_clear {s : State} (hturns : s.env.turns = []) (hphase : s.phase = .idle) (k : Nat)
    (ls : List HostLine) :
    runOut (k + 1) (setScript s (writeLine .err 0#32 :: ls)) = runOut k (setScript (clearError s) ls) := by
  refine runOut_step (s := setScript s _) (fun h => by cases h.1) ?_
  rw [step_setScript_of_idle hturns hphase]
  exact congrArg _ (hostWriteLine_of_err rfl _ _)

theorem ofCode_toNat_code (e : ErrCode) : ErrCode.ofCode (BitVec.ofNat 32 e.code).toNat = e := by cases e <;> rfl

/-- The state in which the host has read `ERR` and `ERRINFO`. -/
def afterErrorReads (s : State) : State :=
  hostReadLine (hostReadLine (clearReceived s) Loc.err.addr) Loc.errinfo.addr

theorem afterErrorReads_received (s : State) :
    (afterErrorReads s).env.received = [BitVec.ofNat 32 s.err.code, s.errinfo] := by
  change [hostRead _ Loc.err.addr, hostRead _ Loc.errinfo.addr] = _
  rw [hostRead_of_normal rfl, hostRead_of_normal rfl]
  rfl

/-- With an error recorded the host answers with it, and clears it (R186). -/
theorem serve_reportError {s : State} (hturns : s.env.turns = []) (hphase : s.phase = .idle) (fuel : Nat) :
    serve (fuel + 3) reportError s
      = some (.error (.block s.err s.errinfo), setScript (clearError (afterErrorReads s)) []) := by
  have hrun : runLines (fuel + 3) s [readLine .err, readLine .errinfo, writeLine .err 0#32]
      = some (setScript (clearError (afterErrorReads s)) []) := by
    rw [runLines_eq, runOut_read (s := clearReceived s) hturns hphase,
      runOut_read (s := hostReadLine (clearReceived s) Loc.err.addr) hturns hphase]
    refine (runOut_clear (s := afterErrorReads s) hturns hphase fuel []).trans ?_
    exact runOut_end (s := clearError (afterErrorReads s)) hphase fuel
  have hwords : (setScript (clearError (afterErrorReads s)) []).env.received
      = [BitVec.ofNat 32 s.err.code, s.errinfo] := afterErrorReads_received s
  rw [reportError, serve_run hrun, hwords, serve_answer]
  simp only [List.getD_cons_zero, List.getD_cons_succ, ofCode_toNat_code]

/-- A request's lines, and then the read of `STATUS` behind them. -/
theorem runLines_readStatus {fuel : Nat} {s u : State} {ls : List HostLine} (hturns : s.env.turns = [])
    (h : runLines fuel s ls = some u) :
    runLines (fuel + 3) s (ls ++ [readLine .status]) = some (setScript (hostReadLine u Loc.status.addr) []) := by
  rw [runLines_eq] at h ⊢
  have hphase := (runOut_over h).2
  refine runOut_append (s := setScript (clearReceived s) ls) (List.cons_ne_nil _ _) hturns h ?_
  rw [runOut_read (runOut_turns (s := setScript (clearReceived s) ls) hturns h) hphase]
  exact runOut_end (s := hostReadLine u Loc.status.addr) hphase 2

/-- What the host does with the words of a request and its read of `STATUS`. -/
theorem serve_checkedRun {fuel : Nat} {s u : State} {ls : List HostLine} (hturns : s.env.turns = [])
    (h : runLines fuel s ls = some u) (result : List Word → Response) :
    serve (fuel + 3) (checkedRun ls result) s
      = serve (fuel + 3) (if errFlag u then reportError else .answer (result u.env.received))
          (setScript (hostReadLine u Loc.status.addr) []) := by
  have hwords : (setScript (hostReadLine u Loc.status.addr) []).env.received = u.env.received ++ [statusWord u] := by
    change u.env.received ++ [hostRead u Loc.status.addr] = _
    rw [hostRead_of_normal rfl, definedWord_status rfl]
  rw [checkedRun, serve_run (runLines_readStatus hturns h), hwords, List.getLastD_concat, statusWord_bit_one,
    List.dropLast_concat]

/-! ## The block after the response -/

theorem hostReadLine_sameButRecord (s : State) (a : HostAddr) : SameButRecord s (hostReadLine s a) :=
  sameButRecord_withEnv s _

theorem readStatus_sameButRecord (s : State) : SameButRecord s (setScript (hostReadLine s Loc.status.addr) []) :=
  (hostReadLine_sameButRecord s _).trans (sameButRecord_withEnv _ _)

theorem clearError_sameButRecord (s : State) : SameButRecord s (clearError s) := rfl

theorem reportError_sameButRecord (s : State) : SameButRecord s (setScript (clearError (afterErrorReads s)) []) :=
  (sameButRecord_withEnv s (clearReceived s).env).trans <|
    (hostReadLine_sameButRecord _ _).trans <| (hostReadLine_sameButRecord _ _).trans <|
      (clearError_sameButRecord _).trans (sameButRecord_withEnv _ _)

/-- Settles O60: the read of `STATUS` decides between the result and `serve_reportError`. -/
theorem requestGetsOneResponse : Obligations.RequestGetsOneResponse := by
  intro fuel ls result s u hturns h
  rw [serve_checkedRun hturns h]
  have hphase : u.phase = .idle := (runOut_over h).2
  have hturns' : u.env.turns = [] := runOut_turns (s := setScript (clearReceived s) ls) hturns h
  by_cases herr : u.err = .errNone
  · refine ⟨setScript (hostReadLine u Loc.status.addr) [], ?_, herr, readStatus_sameButRecord u⟩
    rw [if_pos herr, if_neg (by simp [errFlag_iff, herr]), serve_answer]
  · rw [if_neg herr, if_pos ((errFlag_iff u).2 herr),
      serve_reportError (s := setScript (hostReadLine u Loc.status.addr) []) hturns' hphase]
    exact ⟨_, rfl, rfl, (readStatus_sameButRecord u).trans (reportError_sameButRecord _)⟩

end Sys2Proof.Machine
end
